-- ==== Sys2Proof/Word.lean ====
section
/-! DEFINITION. The word types of the engine: a command or response word (R13), and the 8-bit field a block,
a subkey or a result byte fills (R6). -/

namespace Sys2Proof

/-- A command or response word `w[15:0]`, bit 15 the most significant (R13, R56, R57). -/
abbrev Word := BitVec 16

/-- Eight bits: a block, a subkey, a result byte (R6). -/
abbrev Byte := BitVec 8

end Sys2Proof
end

