-- ==== Sys2Proof/Machine/Bits.lean ====
section
/-! DEFINITION. Bit vectors as the spec reads them (R9 to R12): index 0 is the leftmost and most significant bit.
A vector of length `n` is a `BitVec n`; `val` and `vec` are then its number and back, concatenation `‖` is `++`
(leftmost first) and `xor` is `^^^` (R111). -/

namespace Sys2Proof.Machine

/-- `v[i]`, index 0 the most significant bit (R9). -/
def bit {n : Nat} (v : BitVec n) (i : Nat) : Bool := v.getMsbD i

/-- The vector of length `n` whose bit at index `i` is `f i` (the loops `out[i] <- …` of R76 and R78). -/
def ofBits : (n : Nat) → (Nat → Bool) → BitVec n
  | 0, _ => 0#0
  | n + 1, f => (ofBits n f).concat (f n)

/-- `val(v)`, the sum of `v[i] * 2^(n-1-i)` (R11). -/
def val {n : Nat} (v : BitVec n) : Nat := v.toNat

/-- `vec_n(x)`, the vector with `val(vec_n(x)) = x` for `0 <= x < 2^n` (R11). -/
def vec (n x : Nat) : BitVec n := BitVec.ofNat n x

/-- The slice of `len` bits that begins at index `a`: `v[a..a+len-1]` (R12). -/
def slice {n : Nat} (v : BitVec n) (a len : Nat) : BitVec len := ofBits len (fun i => bit v (a + i))

end Sys2Proof.Machine
end

