-- ==== Sys2Proof/Machine/Operands.lean ====
section
/-! DEFINITION. Operand assembly (R58 to R60) and the checks of the reserved operand bits (R63). A command's whole
operand is in `ARG`; there are no registers, addresses or addressing modes to resolve (R58). -/

namespace Sys2Proof.Machine

/-- The key vector of `LDKEY`: `k = vec_10(K)`, so `k[0]` is `ARG[9]` (R59). -/
def keyOperand (K : BitVec 10) : BitVec 10 := vec 10 K.toNat

/-- The block vector of `ENC` and `DEC`: `b = vec_8(B)`, so `b[0]` is `ARG[7]` (R60). -/
def blockOperand (B : BitVec 8) : BitVec 8 := vec 8 B.toNat

/-- The result byte: `DATA = val(y)`, so `DATA` bit 7 is `y[0]` (R60). -/
def resultByte (y : BitVec 8) : Byte := BitVec.ofNat 8 (val y)

/-- A reserved operand field that is not zero (R63). -/
def operandReserved {n : Nat} (field : BitVec n) : Bool := decide (field ≠ 0#n)

end Sys2Proof.Machine
end

