-- ==== Sys2Proof/Config.lean ====
section
/-! DEFINITION. What an implementation fixes: the shape of the parameter set `PARAMS` (R7). Its legal values
(`RangeValid`, `Usable`, `ParamsValid`), its default and the switch `STRICT` are in Machine/Params.lean. The spec
leaves no VALUE open that an instruction computes, so there is no free value here. -/

namespace Sys2Proof

/-- The parameter set `PARAMS`, a record of six components (R7), as a builder writes it down: an explicit,
inspectable value. Tables hold 1-based source positions (R10, R75); a box is four rows, row 0 first, and inside a
row column 0 first (R90). Nothing is demanded of the entries here: R81's predicates do that. -/
structure ParamSet where
  /-- `P10`: 10 entries, applied to the master key (R79). -/
  p10 : List Nat
  /-- `P8`: 8 entries over a 10-bit vector (R80). -/
  p8 : List Nat
  /-- `P4`: 4 entries, applied to the S-box result (R79). -/
  p4 : List Nat
  /-- `IP`: 8 entries, applied to the input block (R79). -/
  ip : List Nat
  /-- `BOX_1`: 4 rows of 4 entries of 0 to 3 (R90). -/
  box1 : List (List Nat)
  /-- `BOX_2`: 4 rows of 4 entries of 0 to 3 (R90). -/
  box2 : List (List Nat)
  deriving DecidableEq, Repr

end Sys2Proof
end

