-- ==== Sys2Proof/Machine/Params.lean ====
section
/-! DEFINITION. The values of `PARAMS`: the predicates of R81, the derived table `IPINV` (R82), the constant table
`EP` (R110), the generators as relations (R84, R85, R95), the default set (R7, G1), and the type of the parameter
sets an engine can be built with (R86). -/

namespace Sys2Proof.Machine

/-- Every entry of the table is a source position, 1 to `n` (R75). -/
def entriesIn (n : Nat) (t : List Nat) : Bool := t.all (fun x => decide (1 ≤ x) && decide (x ≤ n))

/-- "Bijection over {1..L}": a table of length `L` with each source position used exactly once (R81). -/
def isBijection (L : Nat) (t : List Nat) : Bool :=
  decide (t.length = L) && (List.range L).all (fun j => decide (t.count (j + 1) = 1))

/-- A box is 4 rows of 4 entries, every entry in 0..3 (R81, R90). -/
def boxInRange (b : List (List Nat)) : Bool :=
  decide (b.length = 4) && b.all (fun row => decide (row.length = 4) && row.all (fun x => decide (x ≤ 3)))

/-- `RangeValid(P)` (R81). -/
def rangeValid (P : ParamSet) : Bool :=
  (decide (P.p10.length = 10) && entriesIn 10 P.p10) && (decide (P.p8.length = 8) && entriesIn 10 P.p8) &&
  (decide (P.p4.length = 4) && entriesIn 4 P.p4) && (decide (P.ip.length = 8) && entriesIn 8 P.ip) &&
  boxInRange P.box1 && boxInRange P.box2

/-- `Usable(P)` (R81): what is demanded of every engine. -/
def usable (P : ParamSet) : Bool := rangeValid P && isBijection 8 P.ip

/-- `ParamsValid(P)` (R81): what `STRICT` demands at key load, and what `PV` reports. Nothing is demanded of the
rows of the boxes (R94). -/
def paramsValid (P : ParamSet) : Bool :=
  usable P && isBijection 10 P.p10 && isBijection 4 P.p4 && decide P.p8.Nodup

/-- A parameter set an engine can be built with: the model "demands `Usable(PARAMS)` of its argument and refuses to
build an engine from any other parameter set" (R86). The proof is part of the value, so no state of the machine holds
an unusable set. -/
structure Params where
  set : ParamSet
  isUsable : usable set = true
  deriving DecidableEq, Repr

/-- Building an engine's parameter set, refused when the set is not `Usable` (R86, U2, U3). -/
def buildParams (P : ParamSet) : Option Params := if h : usable P = true then some ⟨P, h⟩ else none

/-- `IPINV`, by the loop of R82: for `i` in 0 .. 7, `IPINV[IP[i] - 1] <- i + 1`. -/
def ipInv (ip : List Nat) : List Nat :=
  (List.range 8).foldl (fun inv i => inv.set (ip.getD i 0 - 1) (i + 1)) (List.replicate 8 0)

/-- `EP`, the fixed expansion table, a constant of the engine (R110). -/
def ep : List Nat := [4, 1, 2, 3, 2, 3, 4, 1]

/-- `PARAMS_STD`, the default of `PARAMS` (R7; the entries are those of 93_implementation_defined.md G1, which the
spec supplies from general knowledge: log entry 1). -/
def paramsStdSet : ParamSet where
  p10 := [3, 5, 2, 7, 4, 10, 1, 9, 8, 6]
  p8 := [6, 3, 7, 4, 8, 5, 10, 9]
  p4 := [2, 4, 3, 1]
  ip := [2, 6, 3, 1, 4, 8, 5, 7]
  box1 := [[1, 0, 3, 2], [3, 2, 1, 0], [0, 2, 1, 3], [3, 1, 3, 2]]
  box2 := [[0, 1, 2, 3], [2, 0, 1, 3], [3, 0, 1, 0], [2, 1, 0, 3]]

/-- The default parameter set as one an engine can be built with (R7, R86). -/
def paramsStd : Params := ⟨paramsStdSet, by decide⟩

/-- The default of `STRICT` (R8). -/
def strictDefault : Bool := true

/-- `GenLegacy(L)`: the tables the legacy generator can produce (R84). -/
def genLegacy (L : Nat) (t : List Nat) : Bool := decide (t.length = L) && entriesIn L t

/-- `GenCertified(L)`: the tables the certified generator can produce (R85). -/
def genCertified (L : Nat) (t : List Nat) : Bool := isBijection L t

/-- A row is a permutation of {0,1,2,3} (R94, R95). -/
def rowPermutation (row : List Nat) : Bool :=
  decide (row.length = 4) && (List.range 4).all (fun j => decide (row.count j = 1))

/-- `GenBox`: the boxes the box generator can produce (R95). -/
def genBox (b : List (List Nat)) : Bool := decide (b.length = 4) && b.all rowPermutation

/-- The parameter sets the legacy design can draw, each component on its own (R84, R95). -/
def legacyDraw (P : ParamSet) : Bool :=
  genLegacy 10 P.p10 && genLegacy 8 P.p8 && genLegacy 4 P.p4 && genLegacy 8 P.ip && genBox P.box1 && genBox P.box2

/-- The parameter sets the certified generator can draw (R85, R95). -/
def certifiedDraw (P : ParamSet) : Bool :=
  genCertified 10 P.p10 && genCertified 8 P.p8 && genCertified 4 P.p4 && genCertified 8 P.ip && genBox P.box1 &&
  genBox P.box2

end Sys2Proof.Machine
end

