-- ==== Sys2Proof/Machine/State.lean ====
section
/-! DEFINITION. The state of the machine as plain data: the engine's own state (R20) and, beside it, the host's side
of the command and response ports (R55, R185) and the host's text procedures (R135). -/

namespace Sys2Proof.Machine

/-- The fault kinds of R150. In this machine a fault is an event INSIDE a step: the command that raises it answers a
NEXT state (`ERR` and the response say which fault it was, R158), and the engine goes on. So the outcome
`Host.Outcome.fault` is never produced; every constructor here is raised through `raise` (Machine/Ops.lean), which is
exact (neither safe nor unsafe: the spec describes it whole). -/
inductive Fault where
  /-- Code 1. Raised by every illegal opcode, and by `STAT` and `CLR` with a non-zero operand (R151). Exact. -/
  | illegalCommand
  /-- Code 2. Raised by `LDKEY` with `KX != 0` (R152). Exact. -/
  | invalidKeyLength
  /-- Code 3. Raised by `ENC` and `DEC` with `BX != 0` (R153). Exact. -/
  | invalidBlockLength
  /-- Code 4. Raised by `LDKEY` when `STRICT` and `PARAMS` is not `ParamsValid` (R154). Exact. -/
  | nonBijectivePermutationTable
  /-- Code 5. The failure of the host's text procedures on a wide character (R155); never in a response word and
  never in `ERR`. Exact. -/
  | unsupportedCharacter
  /-- Code 6. Raised by `ENC` and `DEC` when no instance is loaded (R156). Exact. -/
  | keyNotLoaded
  deriving DecidableEq, Repr

/-- Why the model gives no outcome. -/
inductive Refusal where
  /-- An instruction of the opcode table that has no meaning yet; raised by no arm of `exec` any more. Safe. -/
  | notModelled (mnemonic : String)
  deriving DecidableEq, Repr

/-- The cipher instance (R29): the three key registers, written together by a successful `LDKEY` (R25). -/
structure CipherInstance where
  /-- `KEY`, the 10-bit master key (R24). -/
  key : BitVec 10
  /-- `K1`, the first subkey (R25). -/
  k1 : BitVec 8
  /-- `K2`, the second subkey (R25). -/
  k2 : BitVec 8
  deriving DecidableEq, Repr

/-- The engine's state `(PARAMS, KEY, K1, K2, KV, ERR)` (R20) and the build's switch `STRICT` (R8). `KEY`, `K1`, `K2`
and `KV` have ONE home: `KV = 1` exactly when the registers hold a loaded key (R26), and while `KV = 0` they hold no
value at all: "a model must not give them one" (R26, R33, U6). So `cipher` is `some` exactly when `KV = 1`, and there
is no state in which the flag and the registers disagree. `IPINV` is computed from `params`, `EP` is a constant. -/
structure Engine where
  /-- `PARAMS`, fixed by the build (R7, R22, R23). -/
  params : Params
  /-- `STRICT`, fixed by the build (R8). -/
  strict : Bool
  /-- `KEY`, `K1`, `K2` and, as its tag, `KV` (R24, R25, R26). -/
  cipher : Option CipherInstance
  /-- `ERR`, the sticky first-fault code (R27). -/
  err : BitVec 4
  deriving DecidableEq, Repr

/-- What the host presents to the engine (R185): a command word, any of the 65536, or a reset. -/
inductive Event where
  | command (w : Word)
  | reset
  deriving DecidableEq, Repr

/-- Which of the two text procedures (R137, R138). -/
inductive Direction where
  | encrypt
  | decrypt
  deriving DecidableEq, Repr

/-- How far a text procedure is: still issuing, returned its text, or failed with a status code (R137, U14). -/
inductive TextStatus where
  | running
  | returned
  | failed (code : BitVec 4)
  deriving DecidableEq, Repr

/-- One call of a text procedure; host data (R135, R32(d)). -/
structure TextCall where
  dir : Direction
  /-- The characters not issued yet, first character first. -/
  todo : List Nat
  /-- The output characters so far, first character first (R139). -/
  out : List Byte
  status : TextStatus
  deriving DecidableEq, Repr

/-- What the host does next (R185, R186). A text procedure runs whole, with nothing between its commands
(`callText`), or is begun and then issues one character at a time (`beginText`, `resumeText`, the call named by its
place in `State.texts`), so that commands of other callers may come between (R143). -/
inductive HostAct where
  | event (e : Event)
  | callText (dir : Direction) (text : List Nat)
  | beginText (dir : Direction) (text : List Nat)
  | resumeText (call : Nat)
  deriving DecidableEq, Repr

/-- The whole machine: the engine, and the host's side of its ports. -/
structure State where
  /-- The engine's state (R20). -/
  engine : Engine
  /-- What the host presents from now on, next first (R55, R185). Part of the model, not of the engine. -/
  pending : List HostAct
  /-- The response words given so far, oldest first: the observation of the run (R55, R185). No rule reads it. -/
  responses : List Word
  /-- The text procedures called so far, oldest first; host data (R135, R143). -/
  texts : List TextCall
  deriving DecidableEq, Repr

/-- The state after reset or power-up of an engine built with `p` and `strict` (R33, R171, R172): `KV = 0`,
`ERR = 0`, no key. Nothing has been presented and nothing answered. -/
def State.resetOf (p : Params) (strict : Bool) : State where
  engine := { params := p, strict := strict, cipher := none, err := 0 }
  pending := []
  responses := []
  texts := []

/-- The machine right after reset, as built by default: `PARAMS_STD` (R7) and `STRICT` true (R8). -/
def State.reset : State := State.resetOf paramsStd strictDefault

end Sys2Proof.Machine
end

