-- ==== Sys2Proof/Machine/Flags.lean ====
section
/-! DEFINITION. The flags and the status view: `KV` (R26), `ERR` (R27), `PV` and `STATUS` (R28). -/

namespace Sys2Proof.Machine

/-- `KV`: 1 exactly when the key registers hold a loaded key (R26). -/
def Engine.kv (e : Engine) : Bool := e.cipher.isSome

/-- `PV`: 1 when `ParamsValid(PARAMS)`; a constant of the build (R28). It does not depend on `STRICT` (R145). -/
def Engine.pv (e : Engine) : Bool := paramsValid e.params.set

/-- The fault codes of R150. -/
def Fault.code : Fault → BitVec 4
  | .illegalCommand => 1
  | .invalidKeyLength => 2
  | .invalidBlockLength => 3
  | .nonBijectivePermutationTable => 4
  | .unsupportedCharacter => 5
  | .keyNotLoaded => 6

/-- `ERR` after a fault with code `c`: the first code since reset stays (R27, R158). -/
def stickyErr (err c : BitVec 4) : BitVec 4 := if err = 0#4 then c else err

/-- `STATUS`: bit 7 `KV`, bit 6 `PV`, bits 5:4 zero, bits 3:0 `ERR` (R28). -/
def Engine.statusByte (e : Engine) : Byte :=
  BitVec.ofBool e.kv ++ (BitVec.ofBool e.pv ++ (0#2 ++ e.err))

end Sys2Proof.Machine
end

