-- ==== Sys2Proof/Machine/Ops.lean ====
section
/-! DEFINITION. The operations the meanings share: the response word (R57), taking a fault (R158), the writes of the
key registers (R25, R146), reset (R170, R171), and one transaction at the ports (R55). -/

namespace Sys2Proof.Machine

/-- `respond(st, data) = st * 4096 + data`: status in bits 15:12, bits 11:8 zero, data in bits 7:0 (R57). -/
def respond (st : BitVec 4) (data : Byte) : Word := st ++ (0#4 ++ data)

/-- `ST`, bits 15:12 of a response (R57). -/
def rspStatus (r : Word) : BitVec 4 := r.extractLsb' 12 4

/-- Bits 11:8 of a response, always 0 (R57). -/
def rspZero (r : Word) : BitVec 4 := r.extractLsb' 8 4

/-- `DATA`, bits 7:0 of a response (R57). -/
def rspData (r : Word) : Byte := r.extractLsb' 0 8

/-- Taking a fault, `raise <Fault>`: `ERR` takes the code if it was 0, the response carries the code and data 0, and
nothing else happens (R158). There is no return from a fault to model (R159). -/
def raise (f : Fault) (e : Engine) : Engine × Word :=
  ({ e with err := stickyErr e.err f.code }, respond f.code 0)

/-- The key registers written together, and `KV <- 1` (R25, R102). -/
def Engine.loadInstance (c : CipherInstance) (e : Engine) : Engine := { e with cipher := some c }

/-- `KV <- 0` and the key registers to no value (R146). -/
def Engine.clearInstance (e : Engine) : Engine := { e with cipher := none }

/-- The reset event: `KV = 0`, `ERR = 0`, the key registers hold no value; `PARAMS` and `STRICT` stay (R170, R171,
R172). -/
def Engine.resetEvent (e : Engine) : Engine := { e with cipher := none, err := 0 }

/-- One transaction: the command runs atomically on the engine and its ONE response word follows the earlier ones
(R50, R55). -/
def State.transact (cmd : Engine → Engine × Word) (s : State) : State :=
  { s with engine := (cmd s.engine).1, responses := s.responses ++ [(cmd s.engine).2] }

/-- What the host presents from now on (R185). -/
def State.present (acts : List HostAct) (s : State) : State := { s with pending := acts }

end Sys2Proof.Machine
end

