-- ==== Sys2Proof/Machine/Permutation.lean ====
section
/-! DEFINITION. The permutation unit: `PERM` (R76), its matrix form (R77) and the circular shift `ROL` (R78). -/

namespace Sys2Proof.Machine

/-- `T[i]`, the read of a table by entry position (R43). The default 0 is the entry of no position: no rule forms
one, and a state's tables are in range (R81, R86; Laws/Params.lean), so it is never read. -/
def tableEntry (t : List Nat) (i : Nat) : Nat := t.getD i 0

/-- `PERM(t, v)` for a table with `nout` entries: `out[i] <- v[t[i] - 1]` (R76). -/
def perm (nout : Nat) {nin : Nat} (t : List Nat) (v : BitVec nin) : BitVec nout :=
  ofBits nout (fun i => bit v (tableEntry t i - 1))

/-- The bit-reorder matrix of a table: `M[i][j] = 1` exactly when `t[i] = j + 1` (R77). -/
def permMatrix (t : List Nat) (i j : Nat) : Bool := decide (tableEntry t i = j + 1)

/-- The matrix applied to a vector: `out[i] = OR over j of (M[i][j] AND v[j])` (R77). -/
def permByMatrix (nout : Nat) {nin : Nat} (t : List Nat) (v : BitVec nin) : BitVec nout :=
  ofBits nout (fun i => (List.range nin).any (fun j => permMatrix t i j && bit v j))

/-- `ROL(v, n)`, circular left shift: `out[i] <- v[(i + n) mod m]` (R78). -/
def rol {m : Nat} (v : BitVec m) (n : Nat) : BitVec m := ofBits m (fun i => bit v ((i + n) % m))

end Sys2Proof.Machine
end

