-- ==== Sys2Proof/Machine/SboxRom.lean ====
section
/-! DEFINITION. The substitution-box ROM (R41, R42) and its lookup `SBOX` (R91, R92). -/

namespace Sys2Proof.Machine

/-- The ROM's 32 words in address order: `BOX_1` row by row, then `BOX_2` (R41). -/
def romWords (P : ParamSet) : List Nat := P.box1.flatten ++ P.box2.flatten

/-- The 5-bit address `b*16 + row*4 + col` (R41). -/
def romAddress (b : BitVec 1) (row col : BitVec 2) : BitVec 5 := b ++ (row ++ col)

/-- `RomRead(b, row, col)`: the 2-bit word at the address; `b = 0` selects `BOX_1`, `b = 1` selects `BOX_2` (R42).
All 32 addresses exist, so the default is never read. -/
def romRead (P : ParamSet) (b : BitVec 1) (row col : BitVec 2) : BitVec 2 :=
  vec 2 ((romWords P).getD (romAddress b row col).toNat 0)

/-- The row of a lookup: `h[0] * 2 + h[3]`, the two outer bits (R91). -/
def sboxRow (h : BitVec 4) : BitVec 2 := vec 2 ((bit h 0).toNat * 2 + (bit h 3).toNat)

/-- The column of a lookup: `h[1] * 2 + h[2]`, the two inner bits (R91). -/
def sboxCol (h : BitVec 4) : BitVec 2 := vec 2 ((bit h 1).toNat * 2 + (bit h 2).toNat)

/-- `SBOX(B, h)` for the box that `b` selects (R91, R92). -/
def sbox (P : ParamSet) (b : BitVec 1) (h : BitVec 4) : BitVec 2 := romRead P b (sboxRow h) (sboxCol h)

end Sys2Proof.Machine
end

