-- ==== Sys2Proof/Machine/Round.lean ====
section
/-! DEFINITION. The round function: `F` (R112) and `ROUND` (R113). -/

namespace Sys2Proof.Machine

/-- Step 3 of `F`: `SBOX(BOX_1, x[0..3]) ‖ SBOX(BOX_2, x[4..7])` (R93, R112). -/
def substitute (P : ParamSet) (x : BitVec 8) : BitVec 4 := sbox P 0 (slice x 0 4) ++ sbox P 1 (slice x 4 4)

/-- `F(r, k)`: expand, XOR with the subkey, substitute, permute (R112). -/
def roundValue (P : ParamSet) (r : BitVec 4) (k : BitVec 8) : BitVec 4 :=
  perm 4 P.p4 (substitute P (perm 8 ep r ^^^ k))

/-- `ROUND(l, r, k) = (l xor F(r, k), r)`; it does not swap (R113, R114). -/
def feistelRound (P : ParamSet) (l r : BitVec 4) (k : BitVec 8) : BitVec 4 × BitVec 4 := (l ^^^ roundValue P r k, r)

end Sys2Proof.Machine
end

