-- ==== Sys2Proof/Machine/BlockCipher.lean ====
section
/-! DEFINITION. The two-round Feistel network (R120 to R124) and the commands `ENC` (R125) and `DEC` (R126). -/

namespace Sys2Proof.Machine

/-- The swap between the rounds: `(l, r) <- (r, l)` (R123). -/
def swapHalves (h : BitVec 4 × BitVec 4) : BitVec 4 × BitVec 4 := (h.2, h.1)

/-- `BLOCK(b, ka, kb)`: the six phases of R124 in order (R122). There is no swap after the second round. -/
def block (P : ParamSet) (b ka kb : BitVec 8) : BitVec 8 :=
  let x := perm 8 P.ip b
  let afterA := feistelRound P (slice x 0 4) (slice x 4 4) ka
  let swapped := swapHalves afterA
  let afterB := feistelRound P swapped.1 swapped.2 kb
  perm 8 (ipInv P.ip) (afterB.1 ++ afterB.2)

/-- `ENCRYPT(b) = BLOCK(b, K1, K2)` (R120). -/
def encryptBlock (P : ParamSet) (c : CipherInstance) (b : BitVec 8) : BitVec 8 := block P b c.k1 c.k2

/-- `DECRYPT(b) = BLOCK(b, K2, K1)` (R121). -/
def decryptBlock (P : ParamSet) (c : CipherInstance) (b : BitVec 8) : BitVec 8 := block P b c.k2 c.k1

/-- What `ENC` and `DEC` share: the operand check, then the key check, then the block function; no state is written
on success (R125, R126, R157). -/
def blockCommand (f : ParamSet → CipherInstance → BitVec 8 → BitVec 8) (bx : BitVec 4) (b : BitVec 8) (e : Engine) :
    Engine × Word :=
  if operandReserved bx then raise .invalidBlockLength e
  else
    match e.cipher with
    | none => raise .keyNotLoaded e
    | some c => (e, respond 0 (resultByte (f e.params.set c (blockOperand b))))

/-- `ENC` on the engine (R125). -/
def encCommand (bx : BitVec 4) (b : BitVec 8) (e : Engine) : Engine × Word := blockCommand encryptBlock bx b e

/-- `DEC` on the engine (R126). -/
def decCommand (bx : BitVec 4) (b : BitVec 8) (e : Engine) : Engine × Word := blockCommand decryptBlock bx b e

/-- `ENC` (R125). -/
def execEnc (bx : BitVec 4) (b : BitVec 8) (s : State) : Host.Outcome State Fault Refusal :=
  .next (s.transact (encCommand bx b))

/-- `DEC` (R126). -/
def execDec (bx : BitVec 4) (b : BitVec 8) (s : State) : Host.Outcome State Fault Refusal :=
  .next (s.transact (decCommand bx b))

end Sys2Proof.Machine
end

