-- ==== Sys2Proof/Syntax.lean ====
section
/-! DEFINITION. The command set: one constructor for each row of spec/opcode_table.json. The eight rows with a bit
pattern carry their fields at the width the pattern gives them (R56), so every field value of every word has a term,
the reserved ones too; the two pseudo-instructions carry their text (R66). -/

namespace Sys2Proof

/-- An instruction of the engine. -/
inductive Instr where
  /-- `LDKEY`: `KX = w[11:10]`, `K = w[9:0]` (R56, R102). -/
  | ldkey (kx : BitVec 2) (k : BitVec 10)
  /-- `ENC`: `BX = w[11:8]`, `B = w[7:0]` (R56, R125). -/
  | enc (bx : BitVec 4) (b : BitVec 8)
  /-- `DEC`: `BX = w[11:8]`, `B = w[7:0]` (R56, R126). -/
  | dec (bx : BitVec 4) (b : BitVec 8)
  /-- `STAT`: `ARG = w[11:0]` (R56, R145). -/
  | stat (arg : BitVec 12)
  /-- `CLR`: `ARG = w[11:0]` (R56, R146). -/
  | clr (arg : BitVec 12)
  /-- Row `ILLEGAL.0`: `OP` is 0x0, any `ARG` (R62). -/
  | illegal0 (arg : BitVec 12)
  /-- Row `ILLEGAL.6_7`: `w[15:13]` is `0b011`, so `OP` is 0x6 or 0x7; `low = w[12:0]` (R62). -/
  | illegal67 (low : BitVec 13)
  /-- Row `ILLEGAL.8_F`: `w[15]` is 1, so `OP` is 0x8 to 0xF; `low = w[14:0]` (R62). -/
  | illegal8F (low : BitVec 15)
  /-- Pseudo-instruction `ENCTEXT`: a text, each character a code point (R66, R135, R137). -/
  | enctext (text : List Nat)
  /-- Pseudo-instruction `DECTEXT`: a text, each character a code point (R66, R135, R138). -/
  | dectext (text : List Nat)
  deriving DecidableEq, Repr

end Sys2Proof
end

