-- ==== Sys2Proof/WellFormed.lean ====
section
/-! DEFINITION. Which instructions are LEGAL in the sense of R64: one of the five commands with a legal operand, or a
text procedure over single-byte characters. An instruction that is not well formed is still an instruction: its
meaning raises the fault the spec names for it (R62, R63, R141). -/

namespace Sys2Proof

/-- The legal instructions (R62, R63, R64; for the pseudo-instructions R141). -/
def Instr.wellFormed : Instr → Bool
  | .ldkey kx _ => kx == 0#2
  | .enc bx _ => bx == 0#4
  | .dec bx _ => bx == 0#4
  | .stat arg => arg == 0#12
  | .clr arg => arg == 0#12
  | .illegal0 _ => false
  | .illegal67 _ => false
  | .illegal8F _ => false
  | .enctext text => text.all (fun c => decide (c ≤ 255))
  | .dectext text => text.all (fun c => decide (c ≤ 255))

/-- The instructions that are ONE command word: every row of the opcode table but the two pseudo-instructions
(R56, R66). -/
def Instr.isCommandWord : Instr → Bool
  | .ldkey _ _ => true
  | .enc _ _ => true
  | .dec _ _ => true
  | .stat _ => true
  | .clr _ => true
  | .illegal0 _ => true
  | .illegal67 _ => true
  | .illegal8F _ => true
  | .enctext _ => false
  | .dectext _ => false

end Sys2Proof
end

