-- ==== Sys2Proof/Decode.lean ====
section
/-! DEFINITION. The decoder, total on the 65536 command words (R61, R64), and the encoder, written from the same
tables (R56, R61, R66). -/

namespace Sys2Proof

/-- `OP = w[15:12]` (R56). -/
def opField (w : Word) : BitVec 4 := w.extractLsb' 12 4

/-- `ARG = w[11:0]` (R56). -/
def argField (w : Word) : BitVec 12 := w.extractLsb' 0 12

/-- `KX = ARG[11:10]`, the key extension bits (R56). -/
def kxField (w : Word) : BitVec 2 := w.extractLsb' 10 2

/-- `K = ARG[9:0]`, the key operand (R56). -/
def kField (w : Word) : BitVec 10 := w.extractLsb' 0 10

/-- `BX = ARG[11:8]`, the block extension bits (R56). -/
def bxField (w : Word) : BitVec 4 := w.extractLsb' 8 4

/-- `B = ARG[7:0]`, the block operand (R56). -/
def bField (w : Word) : BitVec 8 := w.extractLsb' 0 8

/-- The decoder: it reads `OP` and nothing else to choose the command (R61). No word is left out: the opcodes that
are no command decode to the table's three illegal rows, by name (R62). -/
def decode (w : Word) : Instr :=
  match (opField w).toNat with
  | 0 => .illegal0 (argField w)
  | 1 => .ldkey (kxField w) (kField w)
  | 2 => .enc (bxField w) (bField w)
  | 3 => .dec (bxField w) (bField w)
  | 4 => .stat (argField w)
  | 5 => .clr (argField w)
  | 6 => .illegal67 (w.extractLsb' 0 13)
  | 7 => .illegal67 (w.extractLsb' 0 13)
  | _ => .illegal8F (w.extractLsb' 0 15)

/-- Why a bit string is no command: the host cannot present part of a word, or a word of another width (R186). -/
inductive DecodeError where
  /-- The bit string is not one 16-bit word. -/
  | notOneWord
  deriving DecidableEq, Repr

/-- Decoding of a bit string of `nbits` bits whose value is `w`, the bits above `nbits` read as 0: one command
word, or a rejection by name. -/
def decodeSized (nbits w : Nat) : Except DecodeError Instr :=
  if nbits = 0 ∨ 16 < nbits then .error .notOneWord else .ok (decode (BitVec.ofNat 16 (w % 2 ^ nbits)))

/-- What the decoder reads from a row's bits, numbered as spec/opcode_table.json numbers them: the rows with bits
are one 16-bit word (R56). -/
def decodeTableWord (nbits w : Nat) : Option Instr :=
  match decodeSized nbits w with
  | .ok i => some i
  | .error _ => none

/-- A row of the opcode table that has a bit pattern: its mnemonic, mask and match. -/
structure OpcodeRow where
  mnemonic : String
  mask : Word
  pattern : Word
  deriving DecidableEq, Repr

/-- The rows of spec/opcode_table.json with a bit pattern, in the table's order. -/
def opcodeRows : List OpcodeRow :=
  [⟨"LDKEY", 0xF000, 0x1000⟩, ⟨"ENC", 0xF000, 0x2000⟩, ⟨"DEC", 0xF000, 0x3000⟩, ⟨"STAT", 0xFFFF, 0x4000⟩,
   ⟨"CLR", 0xFFFF, 0x5000⟩, ⟨"ILLEGAL.0", 0xF000, 0x0000⟩, ⟨"ILLEGAL.6_7", 0xE000, 0x6000⟩,
   ⟨"ILLEGAL.8_F", 0x8000, 0x8000⟩]

/-- The word matches the row: `w AND mask = match`. -/
def OpcodeRow.matchesWord (r : OpcodeRow) (w : Word) : Bool := w &&& r.mask == r.pattern

/-- An instruction's row of the opcode table. -/
def Instr.mnemonic : Instr → String
  | .ldkey _ _ => "LDKEY"
  | .enc _ _ => "ENC"
  | .dec _ _ => "DEC"
  | .stat _ => "STAT"
  | .clr _ => "CLR"
  | .illegal0 _ => "ILLEGAL.0"
  | .illegal67 _ => "ILLEGAL.6_7"
  | .illegal8F _ => "ILLEGAL.8_F"
  | .enctext _ => "ENCTEXT"
  | .dectext _ => "DECTEXT"

/-- The one word of a command (R56, R61, R62); a pseudo-instruction has no word of its own (R66). -/
def encodeWord : Instr → Option Word
  | .ldkey kx k => some (0b0001#4 ++ (kx ++ k))
  | .enc bx b => some (0b0010#4 ++ (bx ++ b))
  | .dec bx b => some (0b0011#4 ++ (bx ++ b))
  | .stat arg => some (0b0100#4 ++ arg)
  | .clr arg => some (0b0101#4 ++ arg)
  | .illegal0 arg => some (0b0000#4 ++ arg)
  | .illegal67 low => some (0b011#3 ++ low)
  | .illegal8F low => some (0b1#1 ++ low)
  | .enctext _ => none
  | .dectext _ => none

/-- The text holds a character wider than one byte (R141). -/
def hasWideChar (text : List Nat) : Bool := text.any (fun c => decide (255 < c))

/-- The words a text procedure expands to, one per character in order; none when some character is wider than one
byte, since nothing is issued then (R66, R137, R138, R141). -/
def expandText (op : BitVec 4) (text : List Nat) : List Word :=
  if hasWideChar text then [] else text.map (fun c => op ++ (0#4 ++ BitVec.ofNat 8 c))

/-- The encoder: the words an instruction stands for, one for a command, and its expansion for a pseudo-instruction
(R56, R66). -/
def encode (i : Instr) : List Word :=
  match i with
  | .enctext text => expandText 0b0010#4 text
  | .dectext text => expandText 0b0011#4 text
  | .ldkey _ _ | .enc _ _ | .dec _ _ | .stat _ | .clr _ | .illegal0 _ | .illegal67 _ | .illegal8F _ =>
    (encodeWord i).toList

end Sys2Proof
end

