-- ==== Sys2Proof/Machine/Codec.lean ====
section
/-! DEFINITION. The byte-stream codec: the host procedures `ENCTEXT` (R137) and `DECTEXT` (R138) over the engine's
block commands. A whole call is `execEnctext` or `execDectext`; a call other callers' commands may come between (R143)
is `beginText` and then `resumeText`, one character each. -/

namespace Sys2Proof.Machine

/-- Character to block: `vec_8(c)` (R45, R136). -/
def charBlock (c : Nat) : BitVec 8 := vec 8 c

/-- Block to character: the character with code point `val(d)` (R139). -/
def blockChar (d : Byte) : Nat := val d

/-- One character's command: `ENC c` or `DEC c`, the word `0x2000 + c` or `0x3000 + c` (R137, R138). -/
def issueCommand (dir : Direction) (c : Nat) : Engine → Engine × Word :=
  match dir with
  | .encrypt => encCommand 0 (charBlock c)
  | .decrypt => decCommand 0 (charBlock c)

/-- The response to one character's command, as the host reads it off the port. -/
def issueResponse (dir : Direction) (c : Nat) (s : State) : Word := (issueCommand dir c s.engine).2

/-- The loop of R137 over the characters still to issue, `out` being the output so far: issue, read the status, stop
and report it if it is not 0 (the output so far is discarded, U14), else keep the data and go on. -/
def textLoop (dir : Direction) : List Nat → List Byte → State → State × TextCall
  | [], out, s => (s, { dir := dir, todo := [], out := out, status := .returned })
  | c :: cs, out, s =>
    let r := issueResponse dir c s
    let s' := s.transact (issueCommand dir c)
    if rspStatus r ≠ 0#4 then (s', { dir := dir, todo := [], out := [], status := .failed (rspStatus r) })
    else textLoop dir cs (out ++ [rspData r]) s'

/-- The call that fails before anything is issued: some code point exceeds 255 (R141, R155). -/
def unsupportedCall (dir : Direction) : TextCall where
  dir := dir
  todo := []
  out := []
  status := .failed Fault.unsupportedCharacter.code

/-- The host keeps the record of a call. -/
def State.addText (c : TextCall) (s : State) : State := { s with texts := s.texts ++ [c] }

/-- A whole text procedure with nothing between its commands: the check of the whole text first, then the loop
(R137, R141). -/
def runText (dir : Direction) (text : List Nat) (s : State) : State :=
  if hasWideChar text then s.addText (unsupportedCall dir)
  else (textLoop dir text [] s).1.addText (textLoop dir text [] s).2

/-- `ENCTEXT` (R137). -/
def execEnctext (text : List Nat) (s : State) : Host.Outcome State Fault Refusal := .next (runText .encrypt text s)

/-- `DECTEXT` (R138). -/
def execDectext (text : List Nat) (s : State) : Host.Outcome State Fault Refusal := .next (runText .decrypt text s)

/-- A call whose characters are all still to issue; the empty text returns at once (R137). -/
def openCall (dir : Direction) (text : List Nat) : TextCall :=
  if hasWideChar text then unsupportedCall dir
  else { dir := dir, todo := text, out := [], status := if text.isEmpty then .returned else .running }

/-- A text procedure is begun: its text is inspected, and nothing is issued yet (R141, R143). -/
def beginText (dir : Direction) (text : List Nat) (s : State) : State := s.addText (openCall dir text)

/-- A call after the response `r` to its next character's command, `cs` being the characters after that one. -/
def TextCall.afterResponse (c : TextCall) (cs : List Nat) (r : Word) : TextCall :=
  if rspStatus r ≠ 0#4 then { c with todo := [], out := [], status := .failed (rspStatus r) }
  else { c with todo := cs, out := c.out ++ [rspData r], status := if cs.isEmpty then .returned else .running }

/-- The call in place `j` issues its next character's command (R143). A call that is over, or a place that holds no
call, has nothing to issue, and nothing happens. -/
def resumeText (j : Nat) (s : State) : State :=
  match s.texts[j]? with
  | none => s
  | some call =>
    match call.status, call.todo with
    | .running, c :: cs =>
      { s.transact (issueCommand call.dir c) with
        texts := s.texts.set j (call.afterResponse cs (issueResponse call.dir c s)) }
    | .running, [] => s
    | .returned, _ => s
    | .failed _, _ => s

end Sys2Proof.Machine
end

