-- ==== Sys2Proof/Machine/KeySchedule.lean ====
section
/-! DEFINITION. The key-schedule generator `KEYSCHED` (R100) and the command that runs it, `LDKEY` (R102, R103). -/

namespace Sys2Proof.Machine

/-- `KEYSCHED(k)`, the pair of subkeys, in the six steps of R100. -/
def keySched (P : ParamSet) (k : BitVec 10) : BitVec 8 × BitVec 8 :=
  let p := perm 10 P.p10 k
  let l0 := slice p 0 5
  let r0 := slice p 5 5
  let l1 := rol l0 1
  let r1 := rol r0 1
  let k1 := perm 8 P.p8 (l1 ++ r1)
  let l2 := rol l1 2
  let r2 := rol r1 2
  let k2 := perm 8 P.p8 (l2 ++ r2)
  (k1, k2)

/-- The instance a key gives: `KEY`, `K1` and `K2` together (R25, R102). -/
def instanceOf (P : ParamSet) (k : BitVec 10) : CipherInstance where
  key := k
  k1 := (keySched P k).1
  k2 := (keySched P k).2

/-- `LDKEY` on the engine: the operand check, then the check of the parameter set, then the load (R102, R103,
R157). -/
def ldkeyCommand (kx : BitVec 2) (k : BitVec 10) (e : Engine) : Engine × Word :=
  if operandReserved kx then raise .invalidKeyLength e
  else if e.strict && !paramsValid e.params.set then raise .nonBijectivePermutationTable e
  else (e.loadInstance (instanceOf e.params.set (keyOperand k)), respond 0 0)

/-- `LDKEY` (R102). -/
def execLdkey (kx : BitVec 2) (k : BitVec 10) (s : State) : Host.Outcome State Fault Refusal :=
  .next (s.transact (ldkeyCommand kx k))

end Sys2Proof.Machine
end

