-- ==== Sys2Proof/Machine/System.lean ====
section
/-! DEFINITION. The system commands `STAT` (R145) and `CLR` (R146), and the words that are no command (R62). -/

namespace Sys2Proof.Machine

/-- `STAT` on the engine: the status byte, or `IllegalCommand` when `ARG != 0` (R145). -/
def statCommand (arg : BitVec 12) (e : Engine) : Engine × Word :=
  if operandReserved arg then raise .illegalCommand e else (e, respond 0 e.statusByte)

/-- `CLR` on the engine: the end of the instance, or `IllegalCommand` when `ARG != 0` (R146). -/
def clrCommand (arg : BitVec 12) (e : Engine) : Engine × Word :=
  if operandReserved arg then raise .illegalCommand e else (e.clearInstance, respond 0 0)

/-- `STAT` (R145). -/
def execStat (arg : BitVec 12) (s : State) : Host.Outcome State Fault Refusal := .next (s.transact (statCommand arg))

/-- `CLR` (R146). -/
def execClr (arg : BitVec 12) (s : State) : Host.Outcome State Fault Refusal := .next (s.transact (clrCommand arg))

/-- Row `ILLEGAL.0`: `IllegalCommand`, whatever `ARG` holds (R62). -/
def execIllegal0 (_arg : BitVec 12) (s : State) : Host.Outcome State Fault Refusal :=
  .next (s.transact (raise .illegalCommand))

/-- Row `ILLEGAL.6_7`: `IllegalCommand`, whatever `ARG` holds (R62). -/
def execIllegal67 (_low : BitVec 13) (s : State) : Host.Outcome State Fault Refusal :=
  .next (s.transact (raise .illegalCommand))

/-- Row `ILLEGAL.8_F`: `IllegalCommand`, whatever `ARG` holds (R62). -/
def execIllegal8F (_low : BitVec 15) (s : State) : Host.Outcome State Fault Refusal :=
  .next (s.transact (raise .illegalCommand))

end Sys2Proof.Machine
end

