-- ==== Sys2Proof/Machine/Dispatch.lean ====
section
/-! DEFINITION. One arm for each constructor of `Instr`: a direct call of its meaning. -/

namespace Sys2Proof.Machine

def exec (i : Instr) (s : State) : Host.Outcome State Fault Refusal :=
  match i with
  | .ldkey kx k => Sys2Proof.Machine.execLdkey kx k s
  | .enc bx b => Sys2Proof.Machine.execEnc bx b s
  | .dec bx b => Sys2Proof.Machine.execDec bx b s
  | .stat arg => Sys2Proof.Machine.execStat arg s
  | .clr arg => Sys2Proof.Machine.execClr arg s
  | .illegal0 arg => Sys2Proof.Machine.execIllegal0 arg s
  | .illegal67 low => Sys2Proof.Machine.execIllegal67 low s
  | .illegal8F low => Sys2Proof.Machine.execIllegal8F low s
  | .enctext text => Sys2Proof.Machine.execEnctext text s
  | .dectext text => Sys2Proof.Machine.execDectext text s

end Sys2Proof.Machine
end

