-- ==== Sys2Proof/Machine/HostPort.lean ====
section
/-! DEFINITION. What one host action does to the machine (R185, R186), and how a word is placed so that the next step
runs it. -/

namespace Sys2Proof.Machine

/-- One host action: a command word is decoded and executed (R55, R61), a reset puts the engine in the reset state
and gives no response (R170, R186), a text procedure runs whole or in part (R137, R143). -/
def perform (a : HostAct) (s : State) : Host.Outcome State Fault Refusal :=
  match a with
  | .event (.command w) => exec (decode w) s
  | .event .reset => .next { s with engine := s.engine.resetEvent }
  | .callText .encrypt text => exec (.enctext text) s
  | .callText .decrypt text => exec (.dectext text) s
  | .beginText dir text => .next (beginText dir text s)
  | .resumeText j => .next (resumeText j s)

/-- The next host action is taken off the pending ones and performed; with nothing pending the engine is quiescent
and nothing changes (R185: "it has no step of its own"). -/
def takeNext (s : State) : Host.Outcome State Fault Refusal :=
  match s.pending with
  | [] => .next s
  | a :: rest => perform a { s with pending := rest }

/-- The word of `nbits` bits with value `w` placed as the next command word at the port, before whatever the host
presents after it. -/
def placeWord (nbits w : Nat) (s : State) : State :=
  { s with pending := .event (.command (BitVec.ofNat 16 (w % 2 ^ nbits))) :: s.pending }

end Sys2Proof.Machine
end

