-- ==== Sys2Proof/Machine/Step.lean ====
section
/-! DEFINITION. One step of the machine: the next event at the ports (R185). -/

namespace Sys2Proof.Machine

/-- One step: the engine takes the next event the host presents (R55, R185). -/
def step (s : State) : Host.Outcome State Fault Refusal := takeNext s

/-- `s` with that command word as the very next event: the machine fetches no instructions (R30), so this stands for
the host presenting the word at the command port (R55). -/
def State.withFetchWord (s : State) (nbits w : Nat) : State := placeWord nbits w s

end Sys2Proof.Machine
end

