-- ==== Sys2Proof/Machine/Assembler.lean ====
section
/-! DEFINITION. The assembler of R65 and R66, and the listing of a response of R67: a line of text to command words. -/

namespace Sys2Proof.Machine

/-- An operand as written: a number, or a bit list with index 0 first (R65). -/
inductive AsmOperand where
  | number (n : Nat)
  | bits (l : List Bool)
  deriving DecidableEq, Repr

/-- A line of a command sequence (R65), the two pseudo-instructions among them (R66). -/
inductive AsmLine where
  | ldkey (key : AsmOperand)
  | enc (block : AsmOperand)
  | dec (block : AsmOperand)
  | stat
  | clr
  | word (n : Nat)
  | enctext (text : List Nat)
  | dectext (text : List Nat)
  deriving DecidableEq, Repr

/-- Why a line does not assemble. -/
inductive AsmError where
  /-- A bit list of the wrong length (R65). -/
  | wrongListLength
  /-- A number over 4095, or over 65535 for `.word` (R65). -/
  | numberTooLarge
  /-- A text with a character wider than one byte: the procedure fails and issues nothing (R141). -/
  | unsupportedCharacter
  /-- The line is not of a form of R65 or R66. -/
  | badSyntax
  deriving DecidableEq, Repr

/-- `val` of a written bit list, index 0 first (R11, R65). -/
def bitListVal (l : List Bool) : Nat := l.foldl (fun a b => 2 * a + b.toNat) 0

/-- The number an operand denotes: a list must have exactly `len` bits, a number must fit the 12 bits of `ARG`
(R65). -/
def operandNumber (len : Nat) : AsmOperand → Except AsmError Nat
  | .number n => if n ≤ 4095 then .ok n else .error .numberTooLarge
  | .bits l => if l.length = len then .ok (bitListVal l) else .error .wrongListLength

/-- "The assembled word is `OP * 4096 + number`" (R65). -/
def assembleWord (op len : Nat) (o : AsmOperand) : Except AsmError (List Word) :=
  (operandNumber len o).map (fun n => [BitVec.ofNat 16 (op * 4096 + n)])

/-- A pseudo-instruction's expansion (R66, R137, R141). -/
def assembleText (op : BitVec 4) (text : List Nat) : Except AsmError (List Word) :=
  if hasWideChar text then .error .unsupportedCharacter else .ok (expandText op text)

/-- The assembler: the words of a line (R65, R66). -/
def assemble : AsmLine → Except AsmError (List Word)
  | .ldkey o => assembleWord 1 10 o
  | .enc o => assembleWord 2 8 o
  | .dec o => assembleWord 3 8 o
  | .stat => .ok [0x4000]
  | .clr => .ok [0x5000]
  | .word n => if n ≤ 65535 then .ok [BitVec.ofNat 16 n] else .error .numberTooLarge
  | .enctext text => assembleText 2 text
  | .dectext text => assembleText 3 text

/-- The value of a digit in a base up to 16; small letters stand for the capital ones (log entry 7). -/
def digitValue (base : Nat) (c : Char) : Option Nat :=
  let n := c.toNat
  let d := if 48 ≤ n ∧ n ≤ 57 then n - 48 else if 65 ≤ n ∧ n ≤ 70 then n - 55
    else if 97 ≤ n ∧ n ≤ 102 then n - 87 else base
  if d < base then some d else none

/-- One or more digits of the base. -/
def parseDigits (base : Nat) (cs : List Char) : Option Nat :=
  if cs.isEmpty then none
  else cs.foldl (fun acc c => acc.bind (fun a => (digitValue base c).map (fun d => a * base + d))) (some 0)

/-- A number: hexadecimal `0xB5`, binary `0b10110101` or decimal `181` (R65). -/
def parseNumber : List Char → Option Nat
  | '0' :: 'x' :: cs => parseDigits 16 cs
  | '0' :: 'b' :: cs => parseDigits 2 cs
  | cs => parseDigits 10 cs

/-- A blank. -/
def isBlank (c : Char) : Bool := c == ' ' || c == '\t'

/-- The characters without the blanks at either end. -/
def trimBlanks (cs : List Char) : List Char := ((cs.dropWhile isBlank).reverse.dropWhile isBlank).reverse

/-- The pieces between commas. -/
def splitCommas (cs : List Char) : List (List Char) :=
  cs.foldr (fun c acc => if c == ',' then [] :: acc else match acc with
    | [] => [[c]]
    | p :: ps => (c :: p) :: ps) [[]]

/-- One element of a bit list. -/
def parseBit (cs : List Char) : Option Bool :=
  match trimBlanks cs with
  | ['0'] => some false
  | ['1'] => some true
  | _ => none

/-- What follows the opening bracket of a bit list: the bits, separated by commas, and the closing bracket (R65). -/
def parseBits (cs : List Char) : Option (List Bool) :=
  if cs.getLast? = some ']' then (splitCommas cs.dropLast).mapM parseBit else none

/-- An operand: a number or a bit list (R65). -/
def parseOperand (cs : List Char) : Option AsmOperand :=
  match cs with
  | '[' :: rest => (parseBits rest).map .bits
  | _ => (parseNumber cs).map .number

/-- The rest of a line up to its comment (R65). -/
def beforeComment (cs : List Char) : List Char := trimBlanks (cs.takeWhile (fun c => c != ';'))

/-- A quoted text and nothing after it but a comment (R66). DESIGN CHOICE (log entry 11): R135 says that a text is a
sequence of code points and names no character set, so which number a character of a source LINE stands for is open; the
model takes its Unicode scalar value. -/
def parseText (cs : List Char) : Option (List Nat) :=
  match cs.dropWhile isBlank with
  | '"' :: rest =>
    let body := rest.takeWhile (fun c => c != '"')
    match rest.drop body.length with
    | '"' :: after => if (beforeComment after).isEmpty then some (body.map Char.toNat) else none
    | _ => none
  | _ => none

/-- A form that takes no operand. -/
def noOperand (line : AsmLine) (rest : List Char) : Option AsmLine :=
  if (beforeComment rest).isEmpty then some line else none

/-- A line that begins with the mnemonic `m` and goes on with `rest` (R65, R66). -/
def parseForm (m rest : List Char) : Option AsmLine :=
  if m = ['L', 'D', 'K', 'E', 'Y'] then (parseOperand (beforeComment rest)).map .ldkey
  else if m = ['E', 'N', 'C'] then (parseOperand (beforeComment rest)).map .enc
  else if m = ['D', 'E', 'C'] then (parseOperand (beforeComment rest)).map .dec
  else if m = ['S', 'T', 'A', 'T'] then noOperand .stat rest
  else if m = ['C', 'L', 'R'] then noOperand .clr rest
  else if m = ['.', 'w', 'o', 'r', 'd'] then (parseNumber (beforeComment rest)).map .word
  else if m = ['E', 'N', 'C', 'T', 'E', 'X', 'T'] then (parseText rest).map .enctext
  else if m = ['D', 'E', 'C', 'T', 'E', 'X', 'T'] then (parseText rest).map .dectext
  else none

/-- A line of source: no command (blank, or only a comment), or one form (R65). -/
def parseLine (line : List Char) : Except AsmError (Option AsmLine) :=
  let cs := line.dropWhile isBlank
  let m := cs.takeWhile (fun c => !isBlank c && c != ';')
  if m.isEmpty then .ok none
  else
    match parseForm m (cs.drop m.length) with
    | some l => .ok (some l)
    | none => .error .badSyntax

/-- The words of one line of source (R65, R66). -/
def assembleLine (line : List Char) : Except AsmError (List Word) :=
  match parseLine line with
  | .error e => .error e
  | .ok none => .ok []
  | .ok (some l) => assemble l

/-- The words of a command sequence, line by line (R65). -/
def assembleProgram : List (List Char) → Except AsmError (List Word)
  | [] => .ok []
  | l :: ls =>
    match assembleLine l, assembleProgram ls with
    | .ok ws, .ok rest => .ok (ws ++ rest)
    | .error e, _ => .error e
    | .ok _, .error e => .error e

/-- A hexadecimal digit as a character. -/
def hexDigit (d : Nat) : Char := if d < 10 then Char.ofNat (48 + d) else Char.ofNat (55 + d)

/-- A response as a listing shows it after a command: `-> 0x009B` (R67). -/
def listResponse (r : Word) : List Char :=
  ['-', '>', ' ', '0', 'x'] ++ [12, 8, 4, 0].map (fun k => hexDigit (r.toNat / 2 ^ k % 16))

end Sys2Proof.Machine
end

