-- ==== Sys2Proof/Safety.lean ====
section
/-! DEFINITION. The terms the statements use: what holds of every run (R29, R103, R150), when a fault has been recorded
(R159), what the host cannot see (R31), and runs (R185). -/

namespace Sys2Proof.Machine

/-- A code that a response word or `ERR` can hold: 0 or the code of a fault the engine raises; 5 and 7 to 15 are never
produced by the engine (R150, R155). -/
def engineCode (c : BitVec 4) : Bool := c == 0 || c == 1 || c == 2 || c == 3 || c == 4 || c == 6

/-- What is true of the engine between commands: `ERR` holds a code the engine raises (R150, R155); the subkeys of a
loaded instance are those of its key (R25, R26); under `STRICT` no instance is loaded on an invalid parameter set
(R103). -/
def Engine.inv (e : Engine) : Prop :=
  engineCode e.err = true ∧
  ∀ c, e.cipher = some c → c = instanceOf e.params.set c.key ∧ (e.strict = true → paramsValid e.params.set = true)

/-- A response word: bits 11:8 are 0, the status is one the engine gives, and a fault's data is 0 (R57, R150). -/
def responseFormed (r : Word) : Bool :=
  rspZero r == 0 && engineCode (rspStatus r) && (rspStatus r == 0 || rspData r == 0)

/-- A text call: a running one has characters left, all single-byte (R141); one that is over has none left; one that
failed has no output, and its code is the codec's own or one `ENC` and `DEC` raise on a legal word (R137, U14). -/
def TextCall.formed (c : TextCall) : Bool :=
  match c.status with
  | .running => !c.todo.isEmpty && !hasWideChar c.todo
  | .returned => c.todo.isEmpty
  | .failed code =>
    c.todo.isEmpty && c.out.isEmpty && (code == Fault.unsupportedCharacter.code || code == Fault.keyNotLoaded.code)

/-- What every step keeps. -/
def State.inv (s : State) : Prop :=
  s.engine.inv ∧ (∀ r ∈ s.responses, responseFormed r = true) ∧ ∀ c ∈ s.texts, c.formed = true

/-- "A fault has been recorded" (R159): `ERR != 0`, or any response of the run with `ST != 0`. So a fault that a later
reset has taken out of `ERR` is still recorded. -/
def State.faultRecorded (s : State) : Bool :=
  decide (s.engine.err ≠ 0#4) || s.responses.any (fun r => decide (rspStatus r ≠ 0#4))

/-- Two engines that differ at most in the master key register `KEY`, while the subkeys agree (R24, R31). -/
def Engine.sameButKey (e₁ e₂ : Engine) : Prop :=
  e₁.params = e₂.params ∧ e₁.strict = e₂.strict ∧ e₁.err = e₂.err ∧
  e₁.cipher.map CipherInstance.k1 = e₂.cipher.map CipherInstance.k1 ∧
  e₁.cipher.map CipherInstance.k2 = e₂.cipher.map CipherInstance.k2

/-- Two machines that look the same to the host: engines the same but for `KEY`, and the same ports (R31). -/
def State.sameButKey (s₁ s₂ : State) : Prop :=
  s₁.engine.sameButKey s₂.engine ∧ s₁.pending = s₂.pending ∧ s₁.responses = s₂.responses ∧ s₁.texts = s₂.texts

/-- An action that is no load, no clear and no reset: it presents a word whose opcode is none of `LDKEY` and `CLR`,
or is part of a text procedure (R131, R143). -/
def HostAct.readsOnly : HostAct → Bool
  | .event (.command w) => opField w != 1 && opField w != 5
  | .event .reset => false
  | .callText _ _ => true
  | .beginText _ _ => true
  | .resumeText _ => true

/-- The state after `acts`, one step each, from `s` with nothing else pending (R185). Every step answers a next state;
a stop would leave the state as it was. -/
def runActs : List HostAct → State → State
  | [], s => s
  | a :: acts, s =>
    match perform a s with
    | .next t => runActs acts t
    | .fault _ => s
    | .refused _ => s

/-- The number of command words among the events (R185). -/
def commandCount : List Event → Nat
  | [] => 0
  | .command _ :: es => commandCount es + 1
  | .reset :: es => commandCount es

end Sys2Proof.Machine
end

