-- ==== Sys2Proof/Certificates/Slice0/Obligations.lean ====
section
/-! DEFINITION. The statements for the provers. Each says a rule of spec/ about the model; none is about a program.
Where one speaks of a state's parameter set it holds for EVERY usable set and both values of `STRICT`. -/

open Sys2Proof Sys2Proof.Machine

/-! ## Encoding -/

/-- Words of 95_test_vectors.md section 3.8, written out from the formats of R56, decode to what they stand for. -/
def Obligations.SpecWordsDecodeToTheirInstructions : Prop :=
  decode 0x1053 = .ldkey 0 0x053 ∧ decode 0x1453 = .ldkey 1 0x053 ∧ decode 0x20B5 = .enc 0 0xB5 ∧
  decode 0x2FFF = .enc 15 0xFF ∧ decode 0x309B = .dec 0 0x9B ∧ decode 0x3100 = .dec 1 0 ∧
  decode 0x4000 = .stat 0 ∧ decode 0x4001 = .stat 1 ∧ decode 0x5000 = .clr 0 ∧ decode 0x5001 = .clr 1 ∧
  decode 0x0000 = .illegal0 0 ∧ decode 0x6000 = .illegal67 0 ∧ decode 0x7FFF = .illegal67 0x1FFF ∧
  decode 0x8000 = .illegal8F 0 ∧ decode 0xFFFF = .illegal8F 0x7FFF

/-- Decoding the word of ANY command gives the command back, every operand at every value (R56, R61, R62). -/
def Obligations.DecodeOfEncodeIsTheCommand : Prop :=
  ∀ (i : Instr) (w : Word), encodeWord i = some w → decode w = i

/-- Every word is the word of the command it decodes to: no bit is dropped, no two commands share a word (R61, R64). -/
def Obligations.EncodeOfDecodeIsTheWord : Prop :=
  ∀ w : Word, encodeWord (decode w) = some w

/-- The opcode map of R61 over all 16 values of `OP`, with the operand fields of R56, as arithmetic on the word's
number. The map's one row for 0x6 to 0xF is two rows of spec/opcode_table.json, with 13 and 15 low bits (R62; as
constructors, log entry 9). -/
def Obligations.DecoderReadsOpAndTheOperandFields : Prop :=
  ∀ w : Word,
    (w.toNat / 4096 = 0 → decode w = .illegal0 (BitVec.ofNat 12 (w.toNat % 4096))) ∧
    (w.toNat / 4096 = 1 →
      decode w = .ldkey (BitVec.ofNat 2 (w.toNat / 1024 % 4)) (BitVec.ofNat 10 (w.toNat % 1024))) ∧
    (w.toNat / 4096 = 2 →
      decode w = .enc (BitVec.ofNat 4 (w.toNat / 256 % 16)) (BitVec.ofNat 8 (w.toNat % 256))) ∧
    (w.toNat / 4096 = 3 →
      decode w = .dec (BitVec.ofNat 4 (w.toNat / 256 % 16)) (BitVec.ofNat 8 (w.toNat % 256))) ∧
    (w.toNat / 4096 = 4 → decode w = .stat (BitVec.ofNat 12 (w.toNat % 4096))) ∧
    (w.toNat / 4096 = 5 → decode w = .clr (BitVec.ofNat 12 (w.toNat % 4096))) ∧
    (w.toNat / 4096 = 6 ∨ w.toNat / 4096 = 7 → decode w = .illegal67 (BitVec.ofNat 13 (w.toNat % 8192))) ∧
    (8 ≤ w.toNat / 4096 → decode w = .illegal8F (BitVec.ofNat 15 (w.toNat % 32768)))

/-- The mask and match of every row of spec/opcode_table.json agree with the decoder (`STAT` and `CLR` rows only with
`ARG = 0`), and the only words that match no row are 0x4001 to 0x4FFF and 0x5001 to 0x5FFF (R62, R63). -/
def Obligations.OpcodeTableRowsAgreeWithTheDecoder : Prop :=
  (∀ r ∈ opcodeRows, ∀ w : Word, r.matchesWord w = true ↔
    (decode w).mnemonic = r.mnemonic ∧ (r.mnemonic = "STAT" ∨ r.mnemonic = "CLR" → argField w = 0)) ∧
  (∀ w : Word, (∀ r ∈ opcodeRows, r.matchesWord w = false) ↔
    (0x4001 ≤ w.toNat ∧ w.toNat ≤ 0x4FFF) ∨ (0x5001 ≤ w.toNat ∧ w.toNat ≤ 0x5FFF))

/-- The legal words are the five ranges of R64, 1538 words in all. -/
def Obligations.LegalWordsAreTheFiveRanges : Prop :=
  ∀ w : Word, (decode w).wellFormed = true ↔
    (0x1000 ≤ w.toNat ∧ w.toNat ≤ 0x13FF) ∨ (0x2000 ≤ w.toNat ∧ w.toNat ≤ 0x20FF) ∨
    (0x3000 ≤ w.toNat ∧ w.toNat ≤ 0x30FF) ∨ w.toNat = 0x4000 ∨ w.toNat = 0x5000

/-- A text procedure expands to one word per character, in order: `0x2000 + c` for `ENCTEXT`, `0x3000 + c` for
`DECTEXT`, and each decodes to the block command of that character; to nothing when a character is wider than one
byte (R66, R137, R138, R141). -/
def Obligations.TextExpandsToOneBlockCommandPerCharacter : Prop :=
  ∀ text : List Nat,
    ((∀ c ∈ text, c ≤ 255) →
      (encode (.enctext text)).map BitVec.toNat = text.map (fun c => 0x2000 + c) ∧
      (encode (.dectext text)).map BitVec.toNat = text.map (fun c => 0x3000 + c) ∧
      (encode (.enctext text)).map decode = text.map (fun c => .enc 0 (BitVec.ofNat 8 c)) ∧
      (encode (.dectext text)).map decode = text.map (fun c => .dec 0 (BitVec.ofNat 8 c))) ∧
    ((∃ c ∈ text, 255 < c) → encode (.enctext text) = [] ∧ encode (.dectext text) = [])

/-- A number operand assembles to `OP * 4096 + number`, and the word decodes to the command with that operand, the
extension bits taking the high part (R65). -/
def Obligations.AssembledNumbersDecodeToTheirOperand : Prop :=
  ∀ n : Nat, n ≤ 4095 →
    (∃ w, assemble (.ldkey (.number n)) = .ok [w] ∧ w.toNat = 1 * 4096 + n ∧
      decode w = .ldkey (BitVec.ofNat 2 (n / 1024)) (BitVec.ofNat 10 n)) ∧
    (∃ w, assemble (.enc (.number n)) = .ok [w] ∧ w.toNat = 2 * 4096 + n ∧
      decode w = .enc (BitVec.ofNat 4 (n / 256)) (BitVec.ofNat 8 n)) ∧
    (∃ w, assemble (.dec (.number n)) = .ok [w] ∧ w.toNat = 3 * 4096 + n ∧
      decode w = .dec (BitVec.ofNat 4 (n / 256)) (BitVec.ofNat 8 n))

/-- A bit list of the right length assembles to the command whose vector has those bits, index 0 first; one of another
length is an error, not an encoding (R59, R60, R65). -/
def Obligations.AssembledBitListsAreTheOperandVector : Prop :=
  (∀ l : List Bool, l.length = 10 → ∃ w k, assemble (.ldkey (.bits l)) = .ok [w] ∧ decode w = .ldkey 0 k ∧
    ∀ i, i < 10 → some (bit (keyOperand k) i) = l[i]?) ∧
  (∀ l : List Bool, l.length = 8 → ∃ w b w' b', assemble (.enc (.bits l)) = .ok [w] ∧ decode w = .enc 0 b ∧
    assemble (.dec (.bits l)) = .ok [w'] ∧ decode w' = .dec 0 b' ∧
    ∀ i, i < 8 → some (bit (blockOperand b) i) = l[i]? ∧ some (bit (blockOperand b') i) = l[i]?) ∧
  (∀ l : List Bool, l.length ≠ 10 → assemble (.ldkey (.bits l)) = .error .wrongListLength) ∧
  (∀ l : List Bool, l.length ≠ 8 → assemble (.enc (.bits l)) = .error .wrongListLength ∧
    assemble (.dec (.bits l)) = .error .wrongListLength)

/-! ## The permutation unit -/

/-- `PERM`: output index `i` holds the source bit `v[t[i] - 1]`; the all-zero and the all-one vector go to the
all-zero and the all-one vector under every table in range (R76). -/
def Obligations.PermMovesTheSourceBits : Prop :=
  ∀ (nout nin : Nat) (t : List Nat) (v : BitVec nin), t.length = nout → (∀ x ∈ t, 1 ≤ x ∧ x ≤ nin) →
    (∀ (i : Nat) (h : i < t.length), bit (perm nout t v) i = bit v (t[i] - 1)) ∧
    perm nout t (0 : BitVec nin) = 0 ∧ perm nout t (BitVec.allOnes nin) = BitVec.allOnes nout

/-- The bit-reorder matrix gives the same vector as `PERM`; each of its rows holds exactly one 1, and for a bijection
each of its columns does too (R77). -/
def Obligations.PermIsItsBitReorderMatrix : Prop :=
  ∀ (nout nin : Nat) (t : List Nat), t.length = nout → (∀ x ∈ t, 1 ≤ x ∧ x ≤ nin) →
    (∀ v : BitVec nin, permByMatrix nout t v = perm nout t v) ∧
    (∀ i, i < nout → ∃ j, (j < nin ∧ permMatrix t i j = true) ∧ ∀ j', permMatrix t i j' = true → j' = j) ∧
    (isBijection nin t = true →
      ∀ j, j < nin → ∃ i, (i < nout ∧ permMatrix t i j = true) ∧ ∀ i', i' < nout → permMatrix t i' j = true → i' = i)

/-- The laws of `PERM`: it distributes over `xor` (b); it is a bijection on vectors when the table is one (c); it is
not injective when a square table is not a bijection, since two inputs that differ only in dropped positions give the
same output (d); a bijection keeps the number of 1 bits (e). The length (a) is in the type of `perm`. -/
def Obligations.PermLaws : Prop :=
  (∀ (nout nin : Nat) (t : List Nat) (a b : BitVec nin),
    perm nout t (a ^^^ b) = perm nout t a ^^^ perm nout t b) ∧
  (∀ (n : Nat) (t : List Nat), isBijection n t = true →
    Function.Bijective (fun v : BitVec n => perm n t v) ∧
    ∀ v : BitVec n, ((List.range n).filter (fun i => bit (perm n t v) i)).length =
      ((List.range n).filter (fun i => bit v i)).length) ∧
  (∀ (n : Nat) (t : List Nat), t.length = n → (∀ x ∈ t, 1 ≤ x ∧ x ≤ n) → isBijection n t = false →
    ¬ Function.Injective (fun v : BitVec n => perm n t v) ∧
    ∀ a b : BitVec n, (∀ i, i < n → i + 1 ∈ t → bit a i = bit b i) → perm n t a = perm n t b)

/-- `ROL(v, n)[i] = v[(i + n) mod m]`, with the corner cases of R78: counts 0 and `m`, composition, and the all-zero
and all-one fixed points. -/
def Obligations.RolLaws : Prop :=
  ∀ (m : Nat) (v : BitVec m), 1 ≤ m →
    (∀ n i, i < m → bit (rol v n) i = bit v ((i + n) % m)) ∧ rol v 0 = v ∧ rol v m = v ∧
    (∀ a b, rol (rol v a) b = rol v (a + b)) ∧
    (∀ n, rol (0 : BitVec m) n = 0 ∧ rol (BitVec.allOnes m) n = BitVec.allOnes m)

/-- `IPINV` undoes `IP` and `IP` undoes `IPINV`, on every parameter set an engine can be built with, and its entries
are those the loop of R82 writes. -/
def Obligations.IpInvUndoesIp : Prop :=
  ∀ p : Params,
    (∀ (i : Nat) (h : i < p.set.ip.length), (ipInv p.set.ip)[p.set.ip[i] - 1]? = some (i + 1)) ∧
    ∀ v : BitVec 8, perm 8 (ipInv p.set.ip) (perm 8 p.set.ip v) = v ∧
      perm 8 p.set.ip (perm 8 (ipInv p.set.ip) v) = v

/-! ## Parameter sets -/

/-- An engine is built from a parameter set exactly when the set is `Usable` (R86), that is, in range with a bijective
`IP` (R81), and then it holds that set. -/
def Obligations.OnlyUsableSetsBuildAnEngine : Prop :=
  ∀ P : ParamSet, (usable P = true → ∃ p, buildParams P = some p ∧ p.set = P) ∧
    ((∃ p, buildParams P = some p) → rangeValid P = true ∧ isBijection 8 P.ip = true)

/-- The predicates of R81, entry by entry: which sets are `Usable`, which are `ParamsValid`; and a parameter set of the
certified generator and the box generator always satisfies `ParamsValid` (R81, R85, R95). -/
def Obligations.CertifiedDrawsAreValid : Prop :=
  (∀ P : ParamSet, usable P = true ↔
    (P.p10.length = 10 ∧ ∀ x ∈ P.p10, 1 ≤ x ∧ x ≤ 10) ∧ (P.p8.length = 8 ∧ ∀ x ∈ P.p8, 1 ≤ x ∧ x ≤ 10) ∧
    (P.p4.length = 4 ∧ ∀ x ∈ P.p4, 1 ≤ x ∧ x ≤ 4) ∧ (P.ip.length = 8 ∧ ∀ x ∈ P.ip, 1 ≤ x ∧ x ≤ 8) ∧
    (∀ B ∈ [P.box1, P.box2], B.length = 4 ∧ ∀ row ∈ B, row.length = 4 ∧ ∀ x ∈ row, x ≤ 3) ∧
    ∀ j, 1 ≤ j → j ≤ 8 → P.ip.count j = 1) ∧
  (∀ P : ParamSet, paramsValid P = true ↔
    usable P = true ∧ (∀ j, 1 ≤ j → j ≤ 10 → P.p10.count j = 1) ∧ (∀ j, 1 ≤ j → j ≤ 4 → P.p4.count j = 1) ∧
    P.p8.Nodup) ∧
  ∀ P : ParamSet, certifiedDraw P = true → paramsValid P = true

/-- The legacy generator can produce every certified table, and what it produces is certified exactly when no entry is
duplicated (R84, R85). -/
def Obligations.LegacyTablesAreCertifiedWhenDistinct : Prop :=
  ∀ (L : Nat) (t : List Nat), genCertified L t = true ↔ genLegacy L t = true ∧ t.Nodup

/-! ## The S-box ROM -/

/-- The ROM word at address `b*16 + row*4 + col` is `BOX[row][col]` of the selected box (R41, R42). -/
def Obligations.RomReadGivesTheBoxEntry : Prop :=
  ∀ (p : Params) (row col : BitVec 2),
    (∀ b : BitVec 1, (romAddress b row col).toNat = b.toNat * 16 + row.toNat * 4 + col.toNat) ∧
    (∃ r, p.set.box1[row.toNat]? = some r ∧ r[col.toNat]? = some (romRead p.set 0 row col).toNat) ∧
    (∃ r, p.set.box2[row.toNat]? = some r ∧ r[col.toNat]? = some (romRead p.set 1 row col).toNat)

/-- `SBOX(B, h)` is the entry in row `h[0]*2 + h[3]`, column `h[1]*2 + h[2]`, as a 2-bit vector whose first bit is the
entry divided by 2 and whose second is its remainder (R91). -/
def Obligations.SboxReadsOuterRowAndInnerColumn : Prop :=
  ∀ (p : Params) (h : BitVec 4),
    (∃ r x, p.set.box1[(bit h 0).toNat * 2 + (bit h 3).toNat]? = some r ∧
      r[(bit h 1).toNat * 2 + (bit h 2).toNat]? = some x ∧
      (bit (sbox p.set 0 h) 0).toNat = x / 2 ∧ (bit (sbox p.set 0 h) 1).toNat = x % 2) ∧
    (∃ r x, p.set.box2[(bit h 0).toNat * 2 + (bit h 3).toNat]? = some r ∧
      r[(bit h 1).toNat * 2 + (bit h 2).toNat]? = some x ∧
      (bit (sbox p.set 1 h) 0).toNat = x / 2 ∧ (bit (sbox p.set 1 h) 1).toNat = x % 2)

/-! ## The key schedule -/

/-- The key schedule as two selections, with the cumulative shift: the second subkey is selected from the halves rotated by 3, the first from the halves
rotated by 1 (R100, R101). -/
def Obligations.SecondSubkeyShiftsByThree : Prop :=
  ∀ (P : ParamSet) (k : BitVec 10),
    (keySched P k).1 = perm 8 P.p8 (rol (slice (perm 10 P.p10 k) 0 5) 1 ++ rol (slice (perm 10 P.p10 k) 5 5) 1) ∧
    (keySched P k).2 = perm 8 P.p8 (rol (slice (perm 10 P.p10 k) 0 5) 3 ++ rol (slice (perm 10 P.p10 k) 5 5) 3)

/-- Which key bit each subkey bit is: `P8` names a position of the rotated halves, rotation by 1 (for `K1`) or 3 (for
`K2`) inside its own half leads back to a position of the permuted key, and `P10` names the key bit (R100). -/
def Obligations.SubkeyBitsAreKeyBits : Prop :=
  ∀ (p : Params) (k : BitVec 10) (i q : Nat), p.set.p8[i]? = some q →
    (∃ x, p.set.p10[if q ≤ 5 then (q - 1 + 1) % 5 else 5 + (q - 6 + 1) % 5]? = some x ∧
      bit (keySched p.set k).1 i = bit k (x - 1)) ∧
    (∃ x, p.set.p10[if q ≤ 5 then (q - 1 + 3) % 5 else 5 + (q - 6 + 3) % 5]? = some x ∧
      bit (keySched p.set k).2 i = bit k (x - 1))

/-- The all-zero key gives all-zero subkeys and the all-one key all-one subkeys, for every `PARAMS` (R100). -/
def Obligations.UniformKeysGiveUniformSubkeys : Prop :=
  ∀ p : Params, keySched p.set 0 = (0, 0) ∧
    keySched p.set (BitVec.allOnes 10) = (BitVec.allOnes 8, BitVec.allOnes 8)

/-! ## The round function and the block cipher -/

/-- `EP` applied to `r` gives `r` rotated right by one place, then `r` rotated left by one place: every source bit
stands in both nibbles (R110). -/
def Obligations.ExpansionRotatesBothWays : Prop :=
  ∀ r : BitVec 4, perm 8 ep r = r.rotateRight 1 ++ r.rotateLeft 1

/-- `F` nibble by nibble: `BOX_1` serves the left nibble of the XOR result, which is `r` rotated right xor the
subkey's left nibble, `BOX_2` the right one; the `BOX_1` output comes first, and `P4` permutes the four bits (R93, R110,
R112). -/
def Obligations.RoundValueNibbleByNibble : Prop :=
  ∀ (p : Params) (r : BitVec 4) (k : BitVec 8),
    roundValue p.set r k = perm 4 p.set.p4
      (sbox p.set 0 (r.rotateRight 1 ^^^ slice k 0 4) ++ sbox p.set 1 (r.rotateLeft 1 ^^^ slice k 4 4))

/-- A round leaves the right half and undoes itself under the same subkey, whatever the parameter set (R113, R115). -/
def Obligations.RoundUndoesItself : Prop :=
  ∀ (P : ParamSet) (l r : BitVec 4) (k : BitVec 8),
    (feistelRound P l r k).2 = r ∧ feistelRound P (feistelRound P l r k).1 (feistelRound P l r k).2 k = (l, r)

/-- The closed form of `BLOCK`: with `f1 = F(r0, ka)` and `f2 = F(l0 xor f1, kb)`, the joined halves are
`(r0 xor f2) ‖ (l0 xor f1)`, with no swap after the second round (R122). -/
def Obligations.BlockClosedForm : Prop :=
  ∀ (P : ParamSet) (l0 r0 : BitVec 4) (b ka kb : BitVec 8), perm 8 P.ip b = l0 ++ r0 →
    block P b ka kb = perm 8 (ipInv P.ip)
      ((r0 ^^^ roundValue P (l0 ^^^ roundValue P r0 ka) kb) ++ (l0 ^^^ roundValue P r0 ka))

/-- THE ROUND TRIP: under one instance decryption undoes encryption and encryption undoes decryption, for every usable
parameter set, every subkey pair and every block (R127, R128). -/
def Obligations.BlockRoundTrip : Prop :=
  ∀ (p : Params) (c : CipherInstance) (b : BitVec 8),
    decryptBlock p.set c (encryptBlock p.set c b) = b ∧ encryptBlock p.set c (decryptBlock p.set c b) = b

/-- `ENCRYPT` is a bijection on the 256 blocks for every key and every usable `PARAMS` (R128). -/
def Obligations.EncryptionIsABijection : Prop :=
  ∀ (p : Params) (k : BitVec 10), Function.Bijective (encryptBlock p.set (instanceOf p.set k))

/-! ## The commands: results, completion and frames -/

/-- `LDKEY` (R102): with `KX != 0` it raises code 2; else, under `STRICT` on an invalid set, code 4; else it writes
`KEY`, `K1`, `K2` and `KV` and answers 0. Nothing else changes. A legal key's word is `0x1000 + K`. -/
def Obligations.LdkeyLoadsTheKeyOrFaults : Prop :=
  ∀ (s : State) (kx : BitVec 2) (k : BitVec 10),
    (kx = 0#2 → (encodeWord (.ldkey kx k)).map BitVec.toNat = some (0x1000 + k.toNat)) ∧
    (kx ≠ 0#2 → exec (.ldkey kx k) s = .next { s with
      engine := { s.engine with err := if s.engine.err = 0#4 then 2 else s.engine.err },
      responses := s.responses ++ [0x2000] }) ∧
    (kx = 0#2 → s.engine.strict = true → paramsValid s.engine.params.set = false →
      exec (.ldkey kx k) s = .next { s with
        engine := { s.engine with err := if s.engine.err = 0#4 then 4 else s.engine.err },
        responses := s.responses ++ [0x4000] }) ∧
    (kx = 0#2 → (s.engine.strict = true → paramsValid s.engine.params.set = true) →
      exec (.ldkey kx k) s = .next { s with
        engine := { s.engine with
          cipher := some (.mk k (keySched s.engine.params.set k).1 (keySched s.engine.params.set k).2) },
        responses := s.responses ++ [0x0000] })

/-- `ENC` (R125): with `BX != 0` it raises code 3; else, with no key loaded, code 6; else it answers the ciphertext
block and changes no state. A legal block's word is `0x2000 + B`. -/
def Obligations.EncAnswersTheCiphertextOrFaults : Prop :=
  ∀ (s : State) (bx : BitVec 4) (b : BitVec 8),
    (bx = 0#4 → (encodeWord (.enc bx b)).map BitVec.toNat = some (0x2000 + b.toNat)) ∧
    (bx ≠ 0#4 → exec (.enc bx b) s = .next { s with
      engine := { s.engine with err := if s.engine.err = 0#4 then 3 else s.engine.err },
      responses := s.responses ++ [0x3000] }) ∧
    (bx = 0#4 → s.engine.kv = false → exec (.enc bx b) s = .next { s with
      engine := { s.engine with err := if s.engine.err = 0#4 then 6 else s.engine.err },
      responses := s.responses ++ [0x6000] }) ∧
    (∀ c, bx = 0#4 → s.engine.cipher = some c → exec (.enc bx b) s = .next { s with
      responses := s.responses ++ [BitVec.ofNat 16 (val (block s.engine.params.set b c.k1 c.k2))] })

/-- `DEC` (R126): as `ENC`, with the subkeys in the other order; a legal block's word is `0x3000 + B`. -/
def Obligations.DecAnswersThePlaintextOrFaults : Prop :=
  ∀ (s : State) (bx : BitVec 4) (b : BitVec 8),
    (bx = 0#4 → (encodeWord (.dec bx b)).map BitVec.toNat = some (0x3000 + b.toNat)) ∧
    (bx ≠ 0#4 → exec (.dec bx b) s = .next { s with
      engine := { s.engine with err := if s.engine.err = 0#4 then 3 else s.engine.err },
      responses := s.responses ++ [0x3000] }) ∧
    (bx = 0#4 → s.engine.kv = false → exec (.dec bx b) s = .next { s with
      engine := { s.engine with err := if s.engine.err = 0#4 then 6 else s.engine.err },
      responses := s.responses ++ [0x6000] }) ∧
    (∀ c, bx = 0#4 → s.engine.cipher = some c → exec (.dec bx b) s = .next { s with
      responses := s.responses ++ [BitVec.ofNat 16 (val (block s.engine.params.set b c.k2 c.k1))] })

/-- `STAT` (R145): with `ARG = 0` it answers `KV*128 + PV*64 + ERR` and changes no state, key or no key; with
`ARG != 0` it raises code 1. Its one legal word is `0x4000`. -/
def Obligations.StatAnswersTheStatusByte : Prop :=
  ∀ (s : State) (arg : BitVec 12),
    (arg = 0#12 → encodeWord (.stat arg) = some 0x4000) ∧
    (arg ≠ 0#12 → exec (.stat arg) s = .next { s with
      engine := { s.engine with err := if s.engine.err = 0#4 then 1 else s.engine.err },
      responses := s.responses ++ [0x1000] }) ∧
    (arg = 0#12 → exec (.stat arg) s = .next { s with
      responses := s.responses ++ [BitVec.ofNat 16
        ((if s.engine.cipher.isSome then 1 else 0) * 128 + (if paramsValid s.engine.params.set then 1 else 0) * 64 +
          s.engine.err.toNat)] })

/-- `CLR` (R146): with `ARG = 0` it drops `KV` and the key registers and answers 0, leaving `ERR` and `PARAMS`; with
`ARG != 0` it raises code 1 and the instance stays loaded. Its one legal word is `0x5000`. -/
def Obligations.ClrDropsTheInstance : Prop :=
  ∀ (s : State) (arg : BitVec 12),
    (arg = 0#12 → encodeWord (.clr arg) = some 0x5000) ∧
    (arg ≠ 0#12 → exec (.clr arg) s = .next { s with
      engine := { s.engine with err := if s.engine.err = 0#4 then 1 else s.engine.err },
      responses := s.responses ++ [0x1000] }) ∧
    (arg = 0#12 → exec (.clr arg) s = .next { s with
      engine := { s.engine with cipher := none },
      responses := s.responses ++ [0x0000] })

/-- A word whose `OP` is 0x0 or 0x6 to 0xF raises `IllegalCommand`, whatever `ARG` holds, and has no effect on `KEY`,
`K1`, `K2` or `KV` (R62); the three illegal rows do so for every operand. -/
def Obligations.IllegalOpcodesRaiseIllegalCommand : Prop :=
  ∀ s : State,
    let raised : State := { s with
      engine := { s.engine with err := if s.engine.err = 0#4 then 1 else s.engine.err },
      responses := s.responses ++ [0x1000] }
    (∀ w : Word, w.toNat / 4096 = 0 ∨ 6 ≤ w.toNat / 4096 → exec (decode w) s = .next raised) ∧
    (∀ arg, exec (.illegal0 arg) s = .next raised) ∧ (∀ low, exec (.illegal67 low) s = .next raised) ∧
    (∀ low, exec (.illegal8F low) s = .next raised)

/-- `ENCTEXT` (R137): on single-byte text with a key loaded it issues one `ENC` per character, gets the ciphertext
blocks in order, and returns them as its text; with no key it stops at the first character with `KeyNotLoaded`; with a
wide character it fails with code 5 and issues nothing. (The record of the call in `texts` is log entry 4.) -/
def Obligations.EnctextReturnsTheCiphertextOrFails : Prop :=
  ∀ (s : State) (text : List Nat),
    (∀ c, (∀ x ∈ text, x ≤ 255) → s.engine.cipher = some c →
      exec (.enctext text) s = .next { s with
        responses := s.responses ++
          text.map (fun x => BitVec.ofNat 16 (val (block s.engine.params.set (BitVec.ofNat 8 x) c.k1 c.k2))),
        texts := s.texts ++
          [.mk .encrypt [] (text.map (fun x => block s.engine.params.set (BitVec.ofNat 8 x) c.k1 c.k2)) .returned] }) ∧
    ((∀ x ∈ text, x ≤ 255) → text ≠ [] → s.engine.cipher = none →
      exec (.enctext text) s = .next { s with
        engine := { s.engine with err := if s.engine.err = 0#4 then 6 else s.engine.err },
        responses := s.responses ++ [0x6000],
        texts := s.texts ++ [{ dir := .encrypt, todo := [], status := .failed 6, out := [] }] }) ∧
    (text = [] → exec (.enctext text) s = .next { s with
        texts := s.texts ++ [{ dir := .encrypt, todo := [], status := .returned, out := [] }] }) ∧
    ((∃ x ∈ text, 255 < x) →
      exec (.enctext text) s = .next { s with
        texts := s.texts ++ [{ dir := .encrypt, todo := [], status := .failed 5, out := [] }] })

/-- `DECTEXT` (R138): as `ENCTEXT`, with `DEC` in place of `ENC`. (The record of the call in `texts` is log entry 4.) -/
def Obligations.DectextReturnsThePlaintextOrFails : Prop :=
  ∀ (s : State) (text : List Nat),
    (∀ c, (∀ x ∈ text, x ≤ 255) → s.engine.cipher = some c →
      exec (.dectext text) s = .next { s with
        responses := s.responses ++
          text.map (fun x => BitVec.ofNat 16 (val (block s.engine.params.set (BitVec.ofNat 8 x) c.k2 c.k1))),
        texts := s.texts ++
          [.mk .decrypt [] (text.map (fun x => block s.engine.params.set (BitVec.ofNat 8 x) c.k2 c.k1)) .returned] }) ∧
    ((∀ x ∈ text, x ≤ 255) → text ≠ [] → s.engine.cipher = none →
      exec (.dectext text) s = .next { s with
        engine := { s.engine with err := if s.engine.err = 0#4 then 6 else s.engine.err },
        responses := s.responses ++ [0x6000],
        texts := s.texts ++ [{ dir := .decrypt, todo := [], status := .failed 6, out := [] }] }) ∧
    (text = [] → exec (.dectext text) s = .next { s with
        texts := s.texts ++ [{ dir := .decrypt, todo := [], status := .returned, out := [] }] }) ∧
    ((∃ x ∈ text, 255 < x) →
      exec (.dectext text) s = .next { s with
        texts := s.texts ++ [{ dir := .decrypt, todo := [], status := .failed 5, out := [] }] })

/-- The round trip at the port: an `ENC` and then a `DEC` of its answer give the block back with status 0, a `DEC` and
then an `ENC` the same, and neither changes the engine (R127). -/
def Obligations.EncThenDecGivesTheBlockBack : Prop :=
  ∀ (s : State) (b : BitVec 8), s.engine.kv = true →
    (∃ y t u, exec (.enc 0 b) s = .next t ∧ t.engine = s.engine ∧ t.responses = s.responses ++ [respond 0 y] ∧
      exec (.dec 0 y) t = .next u ∧ u.engine = s.engine ∧ u.responses = t.responses ++ [respond 0 b]) ∧
    (∃ y t u, exec (.dec 0 b) s = .next t ∧ t.engine = s.engine ∧ t.responses = s.responses ++ [respond 0 y] ∧
      exec (.enc 0 y) t = .next u ∧ u.engine = s.engine ∧ u.responses = t.responses ++ [respond 0 b])

/-- The round trip of a text: `DECTEXT` of what `ENCTEXT` returned returns the text (R142). What a call returned is read
off its record in `texts`, which is the model's (log entry 4). -/
def Obligations.TextRoundTrip : Prop :=
  ∀ (s : State) (text : List Nat), s.engine.kv = true → (∀ x ∈ text, x ≤ 255) →
    ∃ t u ct pt, exec (.enctext text) s = .next t ∧ t.texts = s.texts ++ [ct] ∧ ct.status = .returned ∧
      exec (.dectext (ct.out.map blockChar)) t = .next u ∧ u.texts = t.texts ++ [pt] ∧ pt.status = .returned ∧
      pt.out.map blockChar = text

/-! ## Responses, status and faults -/

/-- `respond(st, data) = st * 4096 + data`, bits 11:8 are 0, and the fields read back (R57). -/
def Obligations.RespondIsStatusTimes4096PlusData : Prop :=
  ∀ (st : BitVec 4) (data : Byte), (respond st data).toNat = st.toNat * 4096 + data.toNat ∧
    rspStatus (respond st data) = st ∧ rspZero (respond st data) = 0 ∧ rspData (respond st data) = data

/-- The `STATUS` byte: bit 7 `KV`, bit 6 `PV`, bits 5:4 zero, bits 3:0 `ERR` (R28). -/
def Obligations.StatusByteLayout : Prop :=
  ∀ e : Engine,
    e.statusByte.getLsbD 7 = e.cipher.isSome ∧ e.statusByte.getLsbD 6 = paramsValid e.params.set ∧
    e.statusByte.getLsbD 5 = false ∧ e.statusByte.getLsbD 4 = false ∧
    ∀ i, i < 4 → e.statusByte.getLsbD i = e.err.getLsbD i

/-- Every one of the 65536 words gets exactly one response word, well formed, after the earlier ones, and touches
neither what the host presents next nor its text calls (R55, R57, R64). -/
def Obligations.EveryWordGetsOneResponse : Prop :=
  ∀ (w : Word) (s : State), ∃ t r, exec (decode w) s = .next t ∧ t.responses = s.responses ++ [r] ∧
    responseFormed r = true ∧ t.pending = s.pending ∧ t.texts = s.texts

/-- Fault entry, over every command: a command whose response has a status that is not 0 changes nothing but `ERR`,
which takes that status if it was 0, and answers `respond(status, 0)` (R158). -/
def Obligations.FaultingCommandChangesOnlyErr : Prop :=
  ∀ (w : Word) (s t : State) (r : Word), exec (decode w) s = .next t → t.responses = s.responses ++ [r] →
    rspStatus r ≠ 0#4 →
    t = { s with
      engine := { s.engine with err := if s.engine.err = 0#4 then rspStatus r else s.engine.err },
      responses := s.responses ++ [respond (rspStatus r) 0] }

/-- Priority: which status every word answers in every state. A malformed word answers by its opcode and operand alone:
an illegal opcode code 1, then `KX` code 2, `BX` code 3, `ARG` code 1. Only a well-formed word is checked against the
state: `LDKEY` for code 4, `ENC` and `DEC` for code 6; else the status is 0 (R157). -/
def Obligations.WordChecksComeBeforeStateChecks : Prop :=
  ∀ (w : Word) (s t : State) (r : Word), exec (decode w) s = .next t → t.responses = s.responses ++ [r] →
    ((decode w).wellFormed = false → rspStatus r =
      if w.toNat / 4096 = 1 then 2 else if w.toNat / 4096 = 2 ∨ w.toNat / 4096 = 3 then 3 else 1) ∧
    ((decode w).wellFormed = true → rspStatus r =
      if w.toNat / 4096 = 1 ∧ s.engine.strict = true ∧ paramsValid s.engine.params.set = false then 4
      else if (w.toNat / 4096 = 2 ∨ w.toNat / 4096 = 3) ∧ s.engine.kv = false then 6 else 0)

/-! ## Whole-machine rules -/

/-- The build never changes: no host action changes `PARAMS` or `STRICT`, and a reset changes neither (R22, R172,
R186). -/
def Obligations.BuildNeverChanges : Prop :=
  ∀ (acts : List HostAct) (s : State),
    (runActs acts s).engine.params = s.engine.params ∧ (runActs acts s).engine.strict = s.engine.strict

/-- Whatever the host does but present an `LDKEY` or `CLR` word or reset, text procedures included, leaves `KEY`, `K1`,
`K2` and `KV` as they were (R25, R26, R29). -/
def Obligations.OnlyLdkeyClrAndResetChangeTheKey : Prop :=
  ∀ (acts : List HostAct) (s : State), (∀ a ∈ acts, a.readsOnly = true) →
    (runActs acts s).engine.cipher = s.engine.cipher

/-- `ERR` keeps the first code until reset: over any run without a reset a non-zero `ERR` never changes (R27, R159).
"A fault has been recorded" is `ERR != 0` or a response with `ST != 0`, and after a command that faulted it stays
recorded over any run, resets included (R159). -/
def Obligations.ErrKeepsTheFirstCodeUntilReset : Prop :=
  (∀ (acts : List HostAct) (s : State), (∀ a ∈ acts, a ≠ .event .reset) → s.engine.err ≠ 0#4 →
    (runActs acts s).engine.err = s.engine.err) ∧
  (∀ s : State, s.faultRecorded = true ↔ s.engine.err ≠ 0#4 ∨ ∃ r ∈ s.responses, rspStatus r ≠ 0#4) ∧
  ∀ (acts : List HostAct) (w : Word) (s t : State) (r : Word), exec (decode w) s = .next t →
    t.responses = s.responses ++ [r] → rspStatus r ≠ 0#4 → (runActs acts t).faultRecorded = true

/-- Sharing: after any number of actions that are no load, clear or reset, `ENC` and `DEC` answer what they would have
answered before them (R131; text calls resumed in part are log entry 4). -/
def Obligations.ReadersDoNotDisturbOneAnother : Prop :=
  ∀ (acts : List HostAct) (s : State) (c : CipherInstance) (b : BitVec 8), (∀ a ∈ acts, a.readsOnly = true) →
    s.engine.cipher = some c →
    exec (.enc 0 b) (runActs acts s) = .next { runActs acts s with
      responses := (runActs acts s).responses ++ [BitVec.ofNat 16 (val (encryptBlock s.engine.params.set c b))] } ∧
    exec (.dec 0 b) (runActs acts s) = .next { runActs acts s with
      responses := (runActs acts s).responses ++ [BitVec.ofNat 16 (val (decryptBlock s.engine.params.set c b))] }

/-- A text procedure character by character (R137, R143; the record of a call and its resumption are the model's, log
entry 4). Beginning one issues nothing and gives no response. Resuming a running call issues ONE command, the `ENC` or
`DEC` of its next character: the engine and the responses are those after that command, its one response is the last, and
the call keeps the data, or on a status that is not 0 fails with it and discards its output. Begun and then resumed once
per character, with nothing between, it ends in the very state of a whole call. -/
def Obligations.ResumedTextEqualsTheWholeCall : Prop :=
  (∀ (dir : Direction) (text : List Nat) (s : State), ∃ t call, perform (.beginText dir text) s = .next t ∧
    t = { s with texts := s.texts ++ [call] } ∧ call.dir = dir ∧ call.out = [] ∧
    ((∃ c ∈ text, 255 < c) → call.todo = [] ∧ call.status = .failed 5) ∧
    ((∀ c ∈ text, c ≤ 255) → call.todo = text ∧ call.status = if text = [] then .returned else .running)) ∧
  (∀ (j : Nat) (call : TextCall) (c : Nat) (cs : List Nat) (s : State), s.texts[j]? = some call →
    call.status = .running → call.todo = c :: cs →
    ∃ r u, exec (if call.dir = .encrypt then .enc 0 (BitVec.ofNat 8 c) else .dec 0 (BitVec.ofNat 8 c)) s = .next u ∧
      u.responses = s.responses ++ [r] ∧
      (rspStatus r = 0#4 → perform (.resumeText j) s = .next { u with
        texts := s.texts.set j { call with
          todo := cs, out := call.out ++ [rspData r], status := if cs = [] then .returned else .running } }) ∧
      (rspStatus r ≠ 0#4 → perform (.resumeText j) s = .next { u with
        texts := s.texts.set j { call with todo := [], out := [], status := .failed (rspStatus r) } })) ∧
  ∀ (dir : Direction) (text : List Nat) (s : State),
    runActs (.beginText dir text :: List.replicate text.length (.resumeText s.texts.length)) s =
      runActs [.callText dir text] s

/-- Under `STRICT` an engine with invalid tables never loads a key: from a state with no key, no run sets `KV`, and at
its end every legal `LDKEY` answers code 4 and every legal `ENC` and `DEC` code 6 (R103). -/
def Obligations.StrictInvalidBuildNeverLoadsAKey : Prop :=
  ∀ (acts : List HostAct) (s : State), s.engine.strict = true → paramsValid s.engine.params.set = false →
    s.engine.kv = false →
    (runActs acts s).engine.kv = false ∧
    (∀ k, ∃ t, exec (.ldkey 0 k) (runActs acts s) = .next t ∧
      t.responses = (runActs acts s).responses ++ [0x4000]) ∧
    (∀ b, ∃ t, exec (.enc 0 b) (runActs acts s) = .next t ∧ t.responses = (runActs acts s).responses ++ [0x6000]) ∧
    (∀ b, ∃ t, exec (.dec 0 b) (runActs acts s) = .next t ∧ t.responses = (runActs acts s).responses ++ [0x6000])

/-- `KEY` cannot be observed: two machines that differ at most in `KEY` take the same steps as far as the host can see,
and differ at most in `KEY` after each (R24, R31). -/
def Obligations.KeyRegisterIsNeverObserved : Prop :=
  ∀ s₁ s₂ t₁ t₂ : State, s₁.sameButKey s₂ → step s₁ = .next t₁ → step s₂ = .next t₂ → t₁.sameButKey t₂

/-! ## Reset, steps and runs -/

/-- Reset: from every state the event sets `KV = 0` and `ERR = 0`, leaves the key registers with no value, keeps
`PARAMS` and `STRICT`, and gives no response; and the machine starts in that state, with `PARAMS_STD` and `STRICT` by
default (R7, R8, R170, R171, R172). -/
def Obligations.ResetLeavesTheResetState : Prop :=
  (∀ (s : State) (rest : List HostAct), s.pending = .event .reset :: rest →
    step s = .next { s with engine := { s.engine with cipher := none, err := 0 }, pending := rest }) ∧
  State.reset.engine = { params := paramsStd, strict := true, cipher := none, err := 0 } ∧
  State.reset.engine.kv = false

/-- The first command after reset, on any build: `STAT` answers `KV = 0`, `ERR = 0`; `CLR` succeeds; `ENC` and `DEC`
fault with `KeyNotLoaded`; `LDKEY` loads a key (where the build lets it) (R173). -/
def Obligations.FirstCommandAfterReset : Prop :=
  ∀ (p : Params) (strict : Bool),
    (∃ t, exec (.stat 0) (State.resetOf p strict) = .next t ∧
      t.responses = [if paramsValid p.set then 0x0040 else 0x0000]) ∧
    (∃ t, exec (.clr 0) (State.resetOf p strict) = .next t ∧ t.responses = [0x0000]) ∧
    (∀ b, ∃ t, exec (.enc 0 b) (State.resetOf p strict) = .next t ∧ t.responses = [0x6000] ∧ t.engine.err = 6) ∧
    (∀ b, ∃ t, exec (.dec 0 b) (State.resetOf p strict) = .next t ∧ t.responses = [0x6000] ∧ t.engine.err = 6) ∧
    (∀ k, (strict = true → paramsValid p.set = true) →
      ∃ t, exec (.ldkey 0 k) (State.resetOf p strict) = .next t ∧ t.responses = [0x0000] ∧ t.engine.kv = true)

/-- A step runs the decoded instruction: with a command word next at the port the step takes it off and executes the
instruction it decodes to (R55, R61). Whatever action is next, the step takes it off and performs it, and this is what
performing each kind of action is (R137, R138, R170, R185; the partial text calls are log entry 4). A table word placed
as the very next event is executed (placing it is the model's choice, log entry 3; a bit string shorter than a word, read
with zeros above it, is the model's choice too, log entry 9). `runActs`, the run the statements speak of, is the core's
run of the presented actions. -/
def Obligations.StepRunsTheDecodedInstruction : Prop :=
  (∀ (s : State) (w : Word) (rest : List HostAct), s.pending = .event (.command w) :: rest →
    step s = exec (decode w) { s with pending := rest }) ∧
  (∀ (s : State) (a : HostAct) (rest : List HostAct), s.pending = a :: rest →
    step s = perform a { s with pending := rest }) ∧
  (∀ (s : State) (w : Word) (dir : Direction) (text : List Nat) (j : Nat),
    perform (.event (.command w)) s = exec (decode w) s ∧
    perform (.event .reset) s = .next { s with engine := { s.engine with cipher := none, err := 0 } } ∧
    perform (.callText .encrypt text) s = exec (.enctext text) s ∧
    perform (.callText .decrypt text) s = exec (.dectext text) s ∧
    perform (.beginText dir text) s = .next (beginText dir text s) ∧
    perform (.resumeText j) s = .next (resumeText j s)) ∧
  (∀ (s : State) (nbits w : Nat) (i : Instr), decodeTableWord nbits w = some i →
    step (s.withFetchWord nbits w) = exec i s) ∧
  ∀ (acts : List HostAct) (s : State),
    core.run acts.length (s.present acts) = .next ((runActs acts s).present [])

/-- Progress: every step answers a next state, and takes exactly the next pending action; with nothing pending it
changes nothing. (The last is the model's choice, log entry 3; R184 and R185 for the rest.) -/
def Obligations.EveryStepAnswersANextState : Prop :=
  ∀ s : State, (∃ t, step s = .next t ∧ t.pending = s.pending.tail) ∧ (s.pending = [] → step s = .next s)

/-- Every accepted command gets its response: `n` steps over `n` events, commands and resets in any order, take them
all and answer each command once (R50, R184, R185). -/
def Obligations.RunsAnswerEveryCommand : Prop :=
  ∀ (events : List Event) (s : State),
    ∃ t, core.run events.length (s.present (events.map .event)) = .next t ∧ t.pending = [] ∧
      t.responses.length = s.responses.length + commandCount events

/-- The invariant holds after reset of every build (its part about `texts`: log entry 4). -/
def Obligations.InvariantHoldsAfterReset : Prop :=
  ∀ (p : Params) (strict : Bool), (State.resetOf p strict).inv

/-- THE INVARIANT OF EVERY STEP: `ERR` and every response hold only codes the engine raises (never 5, never 7 to 15),
a fault's data is 0, response bits 11:8 are 0, a loaded instance's subkeys are those of its key, and under `STRICT` none
is loaded on an invalid set (R26, R57, R103, R150, R155). Its last part, that the records in `texts` stay well formed, is
about the model's own record of text calls (log entry 4). -/
def Obligations.StepKeepsTheInvariant : Prop :=
  ∀ s t : State, s.inv → step s = .next t → t.inv

/-! ## Concrete cross-checks -/

/-- The three literature pairs of 95_test_vectors.md section 2 (93_implementation_defined.md G4), as commands. -/
def Obligations.LiteraturePairsAreReproduced : Prop :=
  (runActs ([0x1282, 0x2097, 0x2072, 0x1097, 0x20A5].map (fun w => .event (.command w))) State.reset).responses =
    [0x0000, 0x0038, 0x0077, 0x0000, 0x0036]

/-- The re-keying hazard: after an `LDKEY` with a different key a `DEC` answers status 0 and a wrong block, and the
first key loaded again gives the right one (R178; 95_test_vectors.md program P3). -/
def Obligations.RekeyingBreaksTheRoundTrip : Prop :=
  (runActs ([0x1053, 0x20B5, 0x1282, 0x309B, 0x1053, 0x309B].map (fun w => .event (.command w)))
    State.reset).responses = [0x0000, 0x009B, 0x0000, 0x0013, 0x0000, 0x00B5]

/-- Two builds with the same key and different `PARAMS` need not decrypt each other's blocks (R129, R177). -/
def Obligations.DifferentBuildsNeedNotInteroperate : Prop :=
  ∃ (p q : Params) (k : BitVec 10) (b : BitVec 8), paramsValid p.set = true ∧ paramsValid q.set = true ∧
    decryptBlock q.set (instanceOf q.set k) (encryptBlock p.set (instanceOf p.set k) b) ≠ b
end

