-- ==== Sys2Proof/Laws/Bits.lean ====
section
/-! SUPPORT. What the bit-vector helpers of Machine/Bits.lean do: a vector is determined by its bits, index 0 first. -/

namespace Sys2Proof.Machine

/-- A vector built by a loop holds, at each index, what the loop wrote there. -/
theorem bit_ofBits {n : Nat} (f : Nat → Bool) {i : Nat} (h : i < n) : bit (ofBits n f) i = f i := by
  induction n with
  | zero => omega
  | succ n ih =>
    unfold bit ofBits
    rw [BitVec.getMsbD_concat]
    by_cases hi : i < n
    · simpa [hi, bit] using ih hi
    · have : i = n := by omega
      subst this
      simp

/-- No bit lies outside the vector. -/
theorem bit_of_le {n : Nat} (v : BitVec n) {i : Nat} (h : n ≤ i) : bit v i = false := by
  simp [bit, BitVec.getMsbD, show ¬ i < n by omega]

/-- Two vectors with the same bits are the same vector. -/
theorem bits_ext {n : Nat} {v w : BitVec n} (h : ∀ i, i < n → bit v i = bit w i) : v = w :=
  BitVec.eq_of_getMsbD_eq h

/-- The loop that copies every bit gives the vector back. -/
theorem ofBits_bit {n : Nat} (v : BitVec n) : ofBits n (bit v) = v :=
  bits_ext fun _ hi => bit_ofBits _ hi

/-- Two loops that write the same bits build the same vector. -/
theorem ofBits_congr {n : Nat} {f g : Nat → Bool} (h : ∀ i, i < n → f i = g i) : ofBits n f = ofBits n g :=
  bits_ext fun i hi => by rw [bit_ofBits f hi, bit_ofBits g hi, h i hi]

/-- The bits of a slice. -/
theorem bit_slice {n : Nat} (v : BitVec n) (a : Nat) {len i : Nat} (h : i < len) :
    bit (slice v a len) i = bit v (a + i) := bit_ofBits _ h

/-- The bits of a concatenation: the left vector's first. -/
theorem bit_append {m n : Nat} (v : BitVec m) (w : BitVec n) (i : Nat) :
    bit (v ++ w) i = if i < m then bit v i else bit w (i - m) := by
  unfold bit
  rw [BitVec.getMsbD_append]
  by_cases h : m ≤ i
  · simp [h, show ¬ i < m by omega]
  · simp [h, show i < m by omega]

/-- The bits of an exclusive-or (R111). -/
theorem bit_xor {n : Nat} (v w : BitVec n) (i : Nat) : bit (v ^^^ w) i = (bit v i ^^ bit w i) := by
  simp [bit]

/-- The all-zero vector. -/
theorem bit_zero (n i : Nat) : bit (0 : BitVec n) i = false := by simp [bit]

/-- The all-one vector. -/
theorem bit_allOnes (n i : Nat) : bit (BitVec.allOnes n) i = decide (i < n) := by
  simp [bit, BitVec.getMsbD]
  omega

/-- `vec_n(val(v)) = v` (R11). -/
theorem vec_val {n : Nat} (v : BitVec n) : vec n (val v) = v := by simp [vec, val]

/-- `val(vec_n(x)) = x` for `x < 2^n` (R11). -/
theorem val_vec {n x : Nat} (h : x < 2 ^ n) : val (vec n x) = x := by
  simp [vec, val, Nat.mod_eq_of_lt h]

/-- The split of a vector into a leading and a trailing part loses nothing. -/
theorem slice_append_slice {m n : Nat} (v : BitVec (m + n)) : slice v 0 m ++ slice v m n = v := by
  apply bits_ext
  intro i hi
  rw [bit_append]
  by_cases h : i < m
  · rw [if_pos h, bit_slice v 0 h, Nat.zero_add]
  · rw [if_neg h, bit_slice v m (show i - m < n by omega)]
    congr 1
    omega

/-- The leading part of a concatenation. -/
theorem slice_append_left {m n : Nat} (v : BitVec m) (w : BitVec n) : slice (v ++ w) 0 m = v := by
  apply bits_ext
  intro i hi
  rw [bit_slice _ 0 hi, bit_append, Nat.zero_add, if_pos hi]

/-- The trailing part of a concatenation. -/
theorem slice_append_right {m n : Nat} (v : BitVec m) (w : BitVec n) : slice (v ++ w) m n = w := by
  apply bits_ext
  intro i hi
  rw [bit_slice _ m hi, bit_append, if_neg (by omega)]
  congr 1
  omega

end Sys2Proof.Machine
end

