-- ==== Sys2Proof/Laws/Decode.lean ====
section
/-! SUPPORT. The fields of a word and the words of the encoder as numbers (R56), so that what the decoder and the
encoder do is arithmetic. -/

namespace Sys2Proof

/-- A concatenation's number. -/
theorem append_toNat {m n : Nat} (x : BitVec m) (y : BitVec n) : (x ++ y).toNat = x.toNat * 2 ^ n + y.toNat := by
  rw [BitVec.toNat_append, ← Nat.shiftLeft_add_eq_or_of_lt y.isLt, Nat.shiftLeft_eq]

theorem opField_toNat (w : Word) : (opField w).toNat = w.toNat / 4096 := by
  have := w.isLt
  simp [opField, Nat.shiftRight_eq_div_pow]
  omega

theorem argField_toNat (w : Word) : (argField w).toNat = w.toNat % 4096 := by
  simp [argField]

theorem kxField_toNat (w : Word) : (kxField w).toNat = w.toNat / 1024 % 4 := by
  simp [kxField, Nat.shiftRight_eq_div_pow]

theorem kField_toNat (w : Word) : (kField w).toNat = w.toNat % 1024 := by
  simp [kField]

theorem bxField_toNat (w : Word) : (bxField w).toNat = w.toNat / 256 % 16 := by
  simp [bxField, Nat.shiftRight_eq_div_pow]

theorem bField_toNat (w : Word) : (bField w).toNat = w.toNat % 256 := by
  simp [bField]

/-- The number of a word made of an opcode and a 12-bit operand. -/
theorem opArg_toNat (op : BitVec 4) (arg : BitVec 12) : (op ++ arg : Word).toNat = op.toNat * 4096 + arg.toNat :=
  append_toNat op arg

/-- The number of a word made of an opcode, two extension bits and a key. -/
theorem opKey_toNat (op : BitVec 4) (kx : BitVec 2) (k : BitVec 10) :
    (op ++ (kx ++ k) : Word).toNat = op.toNat * 4096 + kx.toNat * 1024 + k.toNat := by
  show (op ++ (kx ++ k)).toNat = _
  rw [append_toNat, append_toNat]
  simp
  omega

/-- The number of a word made of an opcode, four extension bits and a block. -/
theorem opBlock_toNat (op : BitVec 4) (bx : BitVec 4) (b : BitVec 8) :
    (op ++ (bx ++ b) : Word).toNat = op.toNat * 4096 + bx.toNat * 256 + b.toNat := by
  show (op ++ (bx ++ b)).toNat = _
  rw [append_toNat, append_toNat]
  simp
  omega

/-- The number of a word of row `ILLEGAL.6_7`. -/
theorem illegal67_toNat (low : BitVec 13) : (0b011#3 ++ low : Word).toNat = 24576 + low.toNat := by
  show (0b011#3 ++ low).toNat = _
  rw [append_toNat]
  simp

/-- The number of a word of row `ILLEGAL.8_F`. -/
theorem illegal8F_toNat (low : BitVec 15) : (0b1#1 ++ low : Word).toNat = 32768 + low.toNat := by
  show (0b1#1 ++ low).toNat = _
  rw [append_toNat]
  simp

/-- The number of the word `encode` gives a command: its opcode's 4096 and its operand fields (R56, R61). -/
theorem encodeWord_toNat (i : Instr) : (encodeWord i).map BitVec.toNat = match i with
    | .ldkey kx k => some (4096 + kx.toNat * 1024 + k.toNat)
    | .enc bx b => some (8192 + bx.toNat * 256 + b.toNat)
    | .dec bx b => some (12288 + bx.toNat * 256 + b.toNat)
    | .stat arg => some (16384 + arg.toNat)
    | .clr arg => some (20480 + arg.toNat)
    | .illegal0 arg => some arg.toNat
    | .illegal67 low => some (24576 + low.toNat)
    | .illegal8F low => some (32768 + low.toNat)
    | .enctext _ => none
    | .dectext _ => none := by
  cases i with
  | ldkey kx k => exact congrArg some (opKey_toNat 1 kx k)
  | enc bx b => exact congrArg some (opBlock_toNat 2 bx b)
  | dec bx b => exact congrArg some (opBlock_toNat 3 bx b)
  | stat arg => exact congrArg some (opArg_toNat 4 arg)
  | clr arg => exact congrArg some (opArg_toNat 5 arg)
  | illegal0 arg => exact congrArg some ((opArg_toNat 0 arg).trans (by simp))
  | illegal67 low => exact congrArg some (illegal67_toNat low)
  | illegal8F low => exact congrArg some (illegal8F_toNat low)
  | enctext _ => rfl
  | dectext _ => rfl

end Sys2Proof
end

