-- ==== Sys2Proof/Laws/Permutation.lean ====
section
/-! SUPPORT. The bits of `PERM`, its matrix form and `ROL`; the ROM address and the operand vectors as numbers. -/

namespace Sys2Proof.Machine

/-- A table read inside the table. -/
theorem tableEntry_eq {t : List Nat} {i : Nat} (h : i < t.length) : tableEntry t i = t[i] := by
  simp [tableEntry, h]

/-- The bits of `PERM` (R76). -/
theorem bit_perm {nout nin : Nat} (t : List Nat) (v : BitVec nin) {i : Nat} (h : i < nout) :
    bit (perm nout t v) i = bit v (tableEntry t i - 1) := bit_ofBits _ h

/-- The bits of the matrix form (R77). -/
theorem bit_permByMatrix {nout nin : Nat} (t : List Nat) (v : BitVec nin) {i : Nat} (h : i < nout) :
    bit (permByMatrix nout t v) i = (List.range nin).any (fun j => permMatrix t i j && bit v j) := bit_ofBits _ h

/-- The bits of `ROL` (R78). -/
theorem bit_rol {m : Nat} (v : BitVec m) (n : Nat) {i : Nat} (h : i < m) : bit (rol v n) i = bit v ((i + n) % m) :=
  bit_ofBits _ h

/-- The row of a lookup as a number (R91). -/
theorem sboxRow_toNat (h : BitVec 4) : (sboxRow h).toNat = (bit h 0).toNat * 2 + (bit h 3).toNat := by
  unfold sboxRow
  cases bit h 0 <;> cases bit h 3 <;> rfl

/-- The column of a lookup as a number (R91). -/
theorem sboxCol_toNat (h : BitVec 4) : (sboxCol h).toNat = (bit h 1).toNat * 2 + (bit h 2).toNat := by
  unfold sboxCol
  cases bit h 1 <;> cases bit h 2 <;> rfl

/-- The key operand is the field's bits as they stand (R59). -/
theorem keyOperand_eq (k : BitVec 10) : keyOperand k = k := by simp [keyOperand, vec]

/-- The block operand is the field's bits as they stand (R60). -/
theorem blockOperand_eq (b : BitVec 8) : blockOperand b = b := by simp [blockOperand, vec]

/-- The result byte is the vector's bits as they stand (R60). -/
theorem resultByte_eq (y : BitVec 8) : resultByte y = y := by simp [resultByte, val]

end Sys2Proof.Machine
end

