-- ==== Sys2Proof/Laws/State.lean ====
section
/-! SUPPORT. One lemma for each field of the state and each update of it, true by definition. -/

namespace Sys2Proof.Machine

section Engine
variable (e : Engine) (c : CipherInstance)

@[simp] theorem loadInstance_params : (e.loadInstance c).params = e.params := rfl
@[simp] theorem loadInstance_strict : (e.loadInstance c).strict = e.strict := rfl
@[simp] theorem loadInstance_cipher : (e.loadInstance c).cipher = some c := rfl
@[simp] theorem loadInstance_err : (e.loadInstance c).err = e.err := rfl

@[simp] theorem clearInstance_params : e.clearInstance.params = e.params := rfl
@[simp] theorem clearInstance_strict : e.clearInstance.strict = e.strict := rfl
@[simp] theorem clearInstance_cipher : e.clearInstance.cipher = none := rfl
@[simp] theorem clearInstance_err : e.clearInstance.err = e.err := rfl

@[simp] theorem resetEvent_params : e.resetEvent.params = e.params := rfl
@[simp] theorem resetEvent_strict : e.resetEvent.strict = e.strict := rfl
@[simp] theorem resetEvent_cipher : e.resetEvent.cipher = none := rfl
@[simp] theorem resetEvent_err : e.resetEvent.err = 0 := rfl

@[simp] theorem raise_params (f : Fault) : (raise f e).1.params = e.params := rfl
@[simp] theorem raise_strict (f : Fault) : (raise f e).1.strict = e.strict := rfl
@[simp] theorem raise_cipher (f : Fault) : (raise f e).1.cipher = e.cipher := rfl
@[simp] theorem raise_err (f : Fault) : (raise f e).1.err = stickyErr e.err f.code := rfl
@[simp] theorem raise_response (f : Fault) : (raise f e).2 = respond f.code 0 := rfl

@[simp] theorem instanceOf_key (P : ParamSet) (k : BitVec 10) : (instanceOf P k).key = k := rfl
@[simp] theorem instanceOf_k1 (P : ParamSet) (k : BitVec 10) : (instanceOf P k).k1 = (keySched P k).1 := rfl
@[simp] theorem instanceOf_k2 (P : ParamSet) (k : BitVec 10) : (instanceOf P k).k2 = (keySched P k).2 := rfl

end Engine

section Ports
variable (s : State) (cmd : Engine → Engine × Word) (acts : List HostAct) (call : TextCall)

@[simp] theorem transact_engine : (s.transact cmd).engine = (cmd s.engine).1 := rfl
@[simp] theorem transact_pending : (s.transact cmd).pending = s.pending := rfl
@[simp] theorem transact_responses : (s.transact cmd).responses = s.responses ++ [(cmd s.engine).2] := rfl
@[simp] theorem transact_texts : (s.transact cmd).texts = s.texts := rfl

@[simp] theorem present_engine : (s.present acts).engine = s.engine := rfl
@[simp] theorem present_pending : (s.present acts).pending = acts := rfl
@[simp] theorem present_responses : (s.present acts).responses = s.responses := rfl
@[simp] theorem present_texts : (s.present acts).texts = s.texts := rfl

@[simp] theorem addText_engine : (s.addText call).engine = s.engine := rfl
@[simp] theorem addText_pending : (s.addText call).pending = s.pending := rfl
@[simp] theorem addText_responses : (s.addText call).responses = s.responses := rfl
@[simp] theorem addText_texts : (s.addText call).texts = s.texts ++ [call] := rfl

@[simp] theorem resetOf_params (p : Params) (b : Bool) : (State.resetOf p b).engine.params = p := rfl
@[simp] theorem resetOf_strict (p : Params) (b : Bool) : (State.resetOf p b).engine.strict = b := rfl
@[simp] theorem resetOf_cipher (p : Params) (b : Bool) : (State.resetOf p b).engine.cipher = none := rfl
@[simp] theorem resetOf_err (p : Params) (b : Bool) : (State.resetOf p b).engine.err = 0 := rfl
@[simp] theorem resetOf_pending (p : Params) (b : Bool) : (State.resetOf p b).pending = [] := rfl
@[simp] theorem resetOf_responses (p : Params) (b : Bool) : (State.resetOf p b).responses = [] := rfl
@[simp] theorem resetOf_texts (p : Params) (b : Bool) : (State.resetOf p b).texts = [] := rfl

end Ports

end Sys2Proof.Machine
end

