-- ==== Sys2Proof/Laws/Exec.lean ====
section
/-! SUPPORT. What an instruction can do, said once: every command word is ONE transaction of an engine command, and an
engine command either raises a fault or succeeds with status 0. The provers cite these and do not unfold `exec`. -/

namespace Sys2Proof.Machine

/-- The engine command of a command word (the pseudo-instructions have none; their value here is never used). -/
def commandOf : Instr → Engine → Engine × Word
  | .ldkey kx k => ldkeyCommand kx k
  | .enc bx b => encCommand bx b
  | .dec bx b => decCommand bx b
  | .stat arg => statCommand arg
  | .clr arg => clrCommand arg
  | .illegal0 _ => raise .illegalCommand
  | .illegal67 _ => raise .illegalCommand
  | .illegal8F _ => raise .illegalCommand
  | .enctext _ => raise .illegalCommand
  | .dectext _ => raise .illegalCommand

/-- A command word is one transaction of its engine command (R55). -/
theorem exec_commandWord {i : Instr} (h : i.isCommandWord = true) (s : State) :
    exec i s = .next (s.transact (commandOf i)) := by
  cases i <;> first | rfl | simp [Instr.isCommandWord] at h

/-- Every word decodes to a command word (R61, R62). -/
theorem decode_isCommandWord (w : Word) : (decode w).isCommandWord = true := by
  unfold decode
  split <;> rfl

/-- An engine command raises a fault the engine has (never the codec's), or answers status 0 and leaves `ERR`, `PARAMS`
and `STRICT` (R157, R158). -/
theorem commandOf_cases (i : Instr) (e : Engine) :
    (∃ f, commandOf i e = raise f e ∧ f ≠ .unsupportedCharacter) ∨
    (∃ d, (commandOf i e).2 = respond 0 d ∧ (commandOf i e).1.err = e.err ∧ (commandOf i e).1.params = e.params ∧
      (commandOf i e).1.strict = e.strict) := by
  cases i <;>
    simp only [commandOf, ldkeyCommand, encCommand, decCommand, blockCommand, statCommand, clrCommand]
  all_goals repeat' split
  all_goals first
    | exact .inl ⟨_, rfl, by decide⟩
    | exact .inr ⟨_, rfl, rfl, rfl, rfl⟩

/-- What `LDKEY` can do to the key registers (R102): nothing on a fault, the whole instance on success. -/
theorem ldkeyCommand_cipher (kx : BitVec 2) (k : BitVec 10) (e : Engine) :
    (ldkeyCommand kx k e).1.cipher = e.cipher ∨
    (ldkeyCommand kx k e).1.cipher = some (instanceOf e.params.set k) ∧
      (e.strict = true → paramsValid e.params.set = true) := by
  unfold ldkeyCommand
  split
  · exact .inl rfl
  · split
    · exact .inl rfl
    · rename_i hv
      refine .inr ⟨by rw [loadInstance_cipher, keyOperand_eq], fun hs => ?_⟩
      simpa [hs] using hv

/-- `ENC` and `DEC` share this: no key register is ever written (R131). -/
theorem blockCommand_cipher (f : ParamSet → CipherInstance → BitVec 8 → BitVec 8) (bx : BitVec 4) (b : BitVec 8)
    (e : Engine) : (blockCommand f bx b e).1.cipher = e.cipher := by
  unfold blockCommand
  split
  · rfl
  · split <;> rfl

/-- One character's command is the `ENC` or `DEC` of that character with no extension bits (R137, R138). -/
theorem issueCommand_eq (dir : Direction) (c : Nat) :
    issueCommand dir c = commandOf (match dir with
      | .encrypt => .enc 0 (BitVec.ofNat 8 c)
      | .decrypt => .dec 0 (BitVec.ofNat 8 c)) := by
  cases dir <;> rfl

/-- A text procedure leaves the characters' responses in order after the earlier ones, and what the host presents next
alone: the loop touches the engine, the responses and nothing else. -/
theorem textLoop_ports (dir : Direction) (text : List Nat) (out : List Byte) (s : State) :
    (textLoop dir text out s).1.pending = s.pending ∧ (textLoop dir text out s).1.texts = s.texts := by
  induction text generalizing out s with
  | nil => exact ⟨rfl, rfl⟩
  | cons c cs ih =>
    rw [textLoop]
    split
    · exact ⟨rfl, rfl⟩
    · exact ih _ (s.transact (issueCommand dir c))

/-- A relation of engines that every command of a text procedure keeps, and that chains, holds across the loop. -/
theorem textLoop_relates {R : Engine → Engine → Prop} (refl : ∀ e, R e e) (chain : ∀ a b c, R a b → R b c → R a c)
    (issue : ∀ dir c e, R e (issueCommand dir c e).1) (dir : Direction) (text : List Nat) (out : List Byte)
    (s : State) : R s.engine (textLoop dir text out s).1.engine := by
  induction text generalizing out s with
  | nil => exact refl _
  | cons c cs ih =>
    rw [textLoop]
    split
    · exact issue dir c _
    · exact chain _ _ _ (issue dir c s.engine) (ih _ (s.transact (issueCommand dir c)))

/-- The loop does not read what is presented next, and keeps it. -/
theorem textLoop_present (dir : Direction) (text : List Nat) (out : List Byte) (s : State) (acts : List HostAct) :
    textLoop dir text out (s.present acts) =
      ((textLoop dir text out s).1.present acts, (textLoop dir text out s).2) := by
  induction text generalizing out s with
  | nil => rfl
  | cons c cs ih =>
    have head : issueResponse dir c (s.present acts) = issueResponse dir c s := rfl
    have tail : (s.present acts).transact (issueCommand dir c) = (s.transact (issueCommand dir c)).present acts := rfl
    rw [textLoop, textLoop, head, tail]
    split
    · rfl
    · exact ih _ _

/-- The loop only adds responses after the earlier ones (R55). -/
theorem textLoop_responses (dir : Direction) (text : List Nat) (out : List Byte) (s : State) :
    s.responses <+: (textLoop dir text out s).1.responses := by
  induction text generalizing out s with
  | nil => exact List.prefix_rfl
  | cons c cs ih =>
    rw [textLoop]
    split
    · exact List.prefix_append _ _
    · exact (List.prefix_append _ _).trans (ih _ (s.transact (issueCommand dir c)))

/-- What one host action can do to the ports: it answers a next state, does not read and keeps what is presented next,
and only adds responses after the earlier ones (R55, R185). -/
theorem perform_ports (a : HostAct) (s : State) : ∃ t, perform a s = .next t ∧ s.responses <+: t.responses ∧
    ∀ acts, perform a (s.present acts) = .next (t.present acts) := by
  cases a with
  | event e =>
    cases e with
    | command w =>
      refine ⟨_, exec_commandWord (decode_isCommandWord w) s, List.prefix_append _ _, fun acts => ?_⟩
      exact exec_commandWord (decode_isCommandWord w) (s.present acts)
    | reset => exact ⟨_, rfl, List.prefix_rfl, fun _ => rfl⟩
  | callText dir text =>
    have whole : s.responses <+: (runText dir text s).responses ∧
        ∀ acts, runText dir text (s.present acts) = (runText dir text s).present acts := by
      unfold runText
      split
      · exact ⟨List.prefix_rfl, fun _ => rfl⟩
      · exact ⟨textLoop_responses dir text [] s, fun acts => by rw [textLoop_present]; rfl⟩
    cases dir <;> exact ⟨_, rfl, whole.1, fun acts => congrArg _ (whole.2 acts)⟩
  | beginText dir text => exact ⟨_, rfl, List.prefix_rfl, fun _ => rfl⟩
  | resumeText j =>
    refine ⟨_, rfl, ?_, fun acts => ?_⟩
    · unfold resumeText
      repeat' split
      all_goals first | exact List.prefix_rfl | exact List.prefix_append _ _
    · simp only [perform, Host.Outcome.next.injEq]
      unfold resumeText
      simp only [present_texts]
      split
      · rfl
      · split <;> rfl

/-- A fault's code is never 0 (R150). -/
theorem code_ne_zero (f : Fault) : f.code ≠ 0#4 := by
  cases f <;> decide

/-- The codes the engine raises are the codes a response can hold (R150, R155). -/
theorem engineCode_code {f : Fault} (h : f ≠ .unsupportedCharacter) : engineCode f.code = true := by
  cases f <;> first | rfl | exact absurd rfl h

end Sys2Proof.Machine
end

