-- ==== Sys2Proof/Laws/Params.lean ====
section
/-! SUPPORT. What the predicates on parameter sets give (R81), and what every parameter set of a state satisfies. -/

namespace Sys2Proof.Machine

/-- A bijection's length, and each source position used exactly once (R81). -/
theorem isBijection_spec {n : Nat} {t : List Nat} (h : isBijection n t = true) :
    t.length = n ∧ ∀ j, j < n → t.count (j + 1) = 1 := by
  simpa [isBijection] using h

/-- The source positions 1 to `n`, each once. -/
theorem positions_nodup (n : Nat) : ((List.range n).map (· + 1)).Nodup :=
  (List.nodup_range).map (by intro a b; simp)

/-- A bijection is a rearrangement of the source positions 1 to `n`. -/
theorem isBijection_perm {n : Nat} {t : List Nat} (h : isBijection n t = true) :
    ((List.range n).map (· + 1)).Perm t := by
  obtain ⟨hl, hc⟩ := isBijection_spec h
  refine (List.subperm_of_subset (positions_nodup n) fun x hx => ?_).perm_of_length_le (by simp [hl])
  obtain ⟨a, ha, rfl⟩ := List.mem_map.1 hx
  exact List.count_pos_iff.1 (by rw [hc a (List.mem_range.1 ha)]; omega)

/-- A bijection repeats no entry. -/
theorem isBijection_nodup {n : Nat} {t : List Nat} (h : isBijection n t = true) : t.Nodup :=
  (isBijection_perm h).nodup_iff.1 (positions_nodup n)

/-- A bijection's entries are exactly the source positions. -/
theorem isBijection_mem {n : Nat} {t : List Nat} (h : isBijection n t = true) (x : Nat) :
    x ∈ t ↔ 1 ≤ x ∧ x ≤ n := by
  rw [← (isBijection_perm h).mem_iff]
  simp only [List.mem_map, List.mem_range]
  constructor
  · rintro ⟨a, ha, rfl⟩
    omega
  · intro hx
    exact ⟨x - 1, by omega, by omega⟩

/-- The tables of a state have the lengths of R79 and entries in range. -/
theorem Params.tables_in_range (p : Params) :
    (p.set.p10.length = 10 ∧ ∀ x ∈ p.set.p10, 1 ≤ x ∧ x ≤ 10) ∧
    (p.set.p8.length = 8 ∧ ∀ x ∈ p.set.p8, 1 ≤ x ∧ x ≤ 10) ∧
    (p.set.p4.length = 4 ∧ ∀ x ∈ p.set.p4, 1 ≤ x ∧ x ≤ 4) ∧
    (p.set.ip.length = 8 ∧ ∀ x ∈ p.set.ip, 1 ≤ x ∧ x ≤ 8) := by
  have h := p.isUsable
  simp only [usable, rangeValid, entriesIn, Bool.and_eq_true, decide_eq_true_eq, List.all_eq_true] at h
  tauto

/-- The boxes of a state are 4 rows of 4 entries of 0 to 3 (R81). -/
theorem Params.boxes_in_range (p : Params) : boxInRange p.set.box1 = true ∧ boxInRange p.set.box2 = true := by
  have h := p.isUsable
  simp only [usable, rangeValid, Bool.and_eq_true] at h
  exact ⟨h.1.1.2, h.1.2⟩

/-- `IP` of a state is a bijection (R81, `Usable`). -/
theorem Params.ip_bijection (p : Params) : isBijection 8 p.set.ip = true := by
  have h := p.isUsable
  simp only [usable, Bool.and_eq_true] at h
  exact h.2

/-- A box in range, written out. -/
theorem boxInRange_rows {b : List (List Nat)} (h : boxInRange b = true) :
    ∃ r₀ r₁ r₂ r₃, b = [r₀, r₁, r₂, r₃] ∧ ∀ r ∈ b, ∃ x₀ x₁ x₂ x₃, r = [x₀, x₁, x₂, x₃] ∧ ∀ x ∈ r, x ≤ 3 := by
  simp only [boxInRange, Bool.and_eq_true, decide_eq_true_eq, List.all_eq_true] at h
  obtain ⟨hl, hr⟩ := h
  match b, hl with
  | [r₀, r₁, r₂, r₃], _ =>
    refine ⟨r₀, r₁, r₂, r₃, rfl, fun r hm => ?_⟩
    obtain ⟨hrl, hx⟩ := hr r hm
    match r, hrl with
    | [x₀, x₁, x₂, x₃], _ => exact ⟨x₀, x₁, x₂, x₃, rfl, hx⟩

end Sys2Proof.Machine
end

