-- ==== Sys2Proof/Laws/PerInstr.lean ====
section
/-! SUPPORT. One lemma per instruction: a command word is one 16-bit word, a pseudo-instruction at most one word per
character (R56, R66). -/

namespace Sys2Proof.Laws.WordCount

/-- How many words the encoder gives an instruction. -/
def Statement (i : Instr) : Prop :=
  match i with
  | .enctext text => (encode i).length = if hasWideChar text then 0 else text.length
  | .dectext text => (encode i).length = if hasWideChar text then 0 else text.length
  | .ldkey _ _ | .enc _ _ | .dec _ _ | .stat _ | .clr _ | .illegal0 _ | .illegal67 _ | .illegal8F _ =>
    (encode i).length = 1

theorem ldkey (kx : BitVec 2) (k : BitVec 10) : Statement (.ldkey kx k) := rfl

theorem enc (bx : BitVec 4) (b : BitVec 8) : Statement (.enc bx b) := rfl

theorem dec (bx : BitVec 4) (b : BitVec 8) : Statement (.dec bx b) := rfl

theorem stat (arg : BitVec 12) : Statement (.stat arg) := rfl

theorem clr (arg : BitVec 12) : Statement (.clr arg) := rfl

theorem illegal0 (arg : BitVec 12) : Statement (.illegal0 arg) := rfl

theorem illegal67 (low : BitVec 13) : Statement (.illegal67 low) := rfl

theorem illegal8F (low : BitVec 15) : Statement (.illegal8F low) := rfl

theorem enctext (text : List Nat) : Statement (.enctext text) := by
  show (expandText 0b0010#4 text).length = if hasWideChar text then 0 else text.length
  unfold expandText
  split <;> simp

theorem dectext (text : List Nat) : Statement (.dectext text) := by
  show (expandText 0b0011#4 text).length = if hasWideChar text then 0 else text.length
  unfold expandText
  split <;> simp

end Sys2Proof.Laws.WordCount
end

