-- ==== Sys2Proof/Tests/Slice0.lean ====
section
/-! SUPPORT. The model's own tests: the refusals of WellFormed, decoding of words written out from R56 and R61, the
vectors of 95_test_vectors.md ("section" below is a section of that file), and for each statement with hypotheses a
concrete input that meets them. -/

namespace Sys2Proof.Tests

open Sys2Proof Sys2Proof.Machine

/-! ## Helpers -/

/-- The default build with the key `k` loaded. -/
def loaded (k : BitVec 10) : State :=
  { State.reset with engine := { State.reset.engine with cipher := some (instanceOf paramsStdSet k) } }

/-- The default build after a first fault with code `c`. -/
def faulted (c : BitVec 4) : State :=
  { State.reset with engine := { State.reset.engine with err := c } }

/-- `PARAMS_LEG` (section 4.2). -/
def paramsLegSet : ParamSet :=
  { paramsStdSet with
    p10 := [1, 1, 2, 3, 5, 5, 7, 8, 9, 9], p8 := [1, 2, 3, 4, 5, 6, 7, 7], p4 := [1, 1, 2, 2] }

/-- `PARAMS_LEG` as a set an engine can be built with. -/
def paramsLeg : Params := ⟨paramsLegSet, by decide⟩

/-- `PARAMS_STD` with another `IP` (section 4.1). -/
def withIp (ip : List Nat) : ParamSet := { paramsStdSet with ip := ip }

/-- The next state of an outcome, if it is one. -/
def nextOf (o : Host.Outcome State Fault Refusal) : Option State :=
  match o with
  | .next t => some t
  | .fault _ => none
  | .refused _ => none

/-- The responses after one instruction. -/
def answer (i : Instr) (s : State) : Option (List Word) := (nextOf (exec i s)).map State.responses

/-- `KV`, `ERR` and the subkeys after one instruction. -/
def keyState (i : Instr) (s : State) : Option (Bool × BitVec 4 × Option (BitVec 8 × BitVec 8)) :=
  (nextOf (exec i s)).map (fun t => (t.engine.kv, t.engine.err, t.engine.cipher.map (fun c => (c.k1, c.k2))))

/-- The text a call that has just ended returned, as code points; nothing when it failed. -/
def returnedText (o : Host.Outcome State Fault Refusal) : Option (List Nat × TextStatus) :=
  (nextOf o).bind (fun t => t.texts.getLast?.map (fun c => (c.out.map blockChar, c.status)))

/-! ## WellFormed refuses (R62, R63, R141) -/

theorem test_wf_refuses_kx : (Instr.ldkey 1 0x053).wellFormed = false := by decide
theorem test_wf_refuses_kx_high : (Instr.ldkey 2 0).wellFormed = false := by decide
theorem test_wf_refuses_bx_enc : (Instr.enc 8 0).wellFormed = false := by decide
theorem test_wf_refuses_bx_dec : (Instr.dec 1 0).wellFormed = false := by decide
theorem test_wf_refuses_arg_stat : (Instr.stat 1).wellFormed = false := by decide
theorem test_wf_refuses_arg_clr : (Instr.clr 0x800).wellFormed = false := by decide
theorem test_wf_refuses_illegal0 : (Instr.illegal0 0).wellFormed = false := by decide
theorem test_wf_refuses_illegal67 : (Instr.illegal67 0).wellFormed = false := by decide
theorem test_wf_refuses_illegal8F : (Instr.illegal8F 0).wellFormed = false := by decide
theorem test_wf_refuses_wide_enctext : (Instr.enctext [0x48, 0x100]).wellFormed = false := by decide
theorem test_wf_refuses_wide_dectext : (Instr.dectext [0x100]).wellFormed = false := by decide
theorem test_wf_admits : (Instr.ldkey 0 0x3FF).wellFormed = true ∧ (Instr.enc 0 0xFF).wellFormed = true ∧
    (Instr.dec 0 0).wellFormed = true ∧ (Instr.stat 0).wellFormed = true ∧ (Instr.clr 0).wellFormed = true ∧
    (Instr.enctext []).wellFormed = true ∧ (Instr.dectext [255]).wellFormed = true := by decide

/-! ## Decoding, from the bit formats of R56 and R61 -/

theorem test_decode_ldkey : decode 0b0001_00_0001010011#16 = .ldkey 0 0b0001010011 := by decide
theorem test_decode_ldkey_kx : decode 0b0001_10_0000000001#16 = .ldkey 0b10 1 := by decide
theorem test_decode_enc : decode 0b0010_0000_10110101#16 = .enc 0 0b10110101 := by decide
theorem test_decode_enc_bx : decode 0b0010_1000_00000001#16 = .enc 0b1000 1 := by decide
theorem test_decode_dec : decode 0b0011_0001_10011011#16 = .dec 1 0b10011011 := by decide
theorem test_decode_stat : decode 0b0100_000000000000#16 = .stat 0 := by decide
theorem test_decode_stat_arg : decode 0b0100_100000000001#16 = .stat 0b100000000001 := by decide
theorem test_decode_clr : decode 0b0101_000000000001#16 = .clr 1 := by decide
theorem test_decode_illegal0 : decode 0b0000_100000000010#16 = .illegal0 0b100000000010 := by decide
theorem test_decode_illegal6 : decode 0b0110_000000000011#16 = .illegal67 0b0_000000000011 := by decide
theorem test_decode_illegal7 : decode 0b0111_000000000011#16 = .illegal67 0b1_000000000011 := by decide
theorem test_decode_illegal8 : decode 0b1000_000000000101#16 = .illegal8F 0b000_000000000101 := by decide
theorem test_decode_illegalF : decode 0b1111_000000000101#16 = .illegal8F 0b111_000000000101 := by decide

theorem test_encode_words : encode (.ldkey 0 0x282) = [0x1282] ∧ encode (.enc 0 0x97) = [0x2097] ∧
    encode (.dec 0 0x38) = [0x3038] ∧ encode (.stat 0) = [0x4000] ∧ encode (.clr 0) = [0x5000] ∧
    encode (.illegal0 0) = [0x0000] ∧ encode (.illegal67 0) = [0x6000] ∧ encode (.illegal8F 0x7FFF) = [0xFFFF] := by
  decide

/-- Section 3.9: the commands `ENCTEXT "Hi"` and the `DECTEXT` of its output issue. -/
theorem test_encode_texts : encode (.enctext [0x48, 0x69]) = [0x2048, 0x2069] ∧
    encode (.dectext [0xE0, 0xC7]) = [0x30E0, 0x30C7] ∧ encode (.enctext []) = [] := by decide

/-- R186: part of a word, or more than one, is no command. -/
theorem test_decode_sizes : decodeTableWord 0 0 = none ∧ decodeTableWord 17 0x4000 = none ∧
    decodeTableWord 16 0x4000 = some (.stat 0) := by decide

/-- No two rows of the opcode table share a word. -/
theorem test_rows_disjoint :
    opcodeRows.Pairwise (fun r t => (r.pattern ^^^ t.pattern) &&& r.mask &&& t.mask ≠ 0) := by decide

/-! ## The units (sections 3.1 to 3.5) -/

theorem test_perm_p10 : perm 10 paramsStdSet.p10 0b1010000010#10 = 0b1000001100#10 := by decide
theorem test_perm_p8_drops : perm 8 paramsStdSet.p8 0b1100000000#10 = 0#8 := by decide
theorem test_perm_p4 : perm 4 paramsStdSet.p4 0b0001#4 = 0b0100#4 := by decide
theorem test_perm_ip : perm 8 paramsStdSet.ip 0b10010111#8 = 0b01011101#8 := by decide
theorem test_perm_ipinv : perm 8 (ipInv paramsStdSet.ip) 0b10000000#8 = 0b01000000#8 := by decide
theorem test_perm_ep : perm 8 ep 0b1100#4 = 0b01101001#8 := by decide
theorem test_perm_not_bijective : permByMatrix 4 [1, 1, 2, 2] 0b1000#4 = 0b1100#4 := by decide
theorem test_ipinv_table : ipInv [2, 3, 4, 5, 6, 7, 8, 1] = [8, 1, 2, 3, 4, 5, 6, 7] := by decide
theorem test_rol : rol 0b01011#5 3 = 0b11010#5 ∧ rol 0b10000#5 1 = 0b00001#5 := by decide

/-- Section 3.3, `BOX_1`: every input in order. -/
theorem test_sbox1 : (List.range 16).map (fun h => (sbox paramsStdSet 0 (BitVec.ofNat 4 h)).toNat) =
    [1, 3, 0, 2, 3, 1, 2, 0, 0, 3, 2, 1, 1, 3, 3, 2] := by decide

/-- Section 3.3, `BOX_2`: every input in order. -/
theorem test_sbox2 : (List.range 16).map (fun h => (sbox paramsStdSet 1 (BitVec.ofNat 4 h)).toNat) =
    [0, 2, 1, 0, 2, 1, 3, 3, 3, 2, 0, 1, 1, 0, 0, 3] := by decide

theorem test_keysched : keySched paramsStdSet 0b1010000010 = (0b10100100, 0b01000011) := by decide
theorem test_keysched_single_bit : keySched paramsStdSet 0x001 = (0x02, 0x08) := by decide
theorem test_round_value : roundValue paramsStdSet 0b0110 0b00101010 = 0b1111 := by decide
theorem test_round : feistelRound paramsStdSet 0b0101 0b1101 0b10100100 = (0b1010, 0b1101) := by decide

/-- Section 4.1: the ciphertexts of one key and block under three values of `IP`. -/
theorem test_other_ips :
    encryptBlock (withIp [1, 2, 3, 4, 5, 6, 7, 8]) (instanceOf paramsStdSet 0x053) 0xB5 = 0x50 ∧
    encryptBlock (withIp [8, 7, 6, 5, 4, 3, 2, 1]) (instanceOf paramsStdSet 0x053) 0xB5 = 0xAB ∧
    encryptBlock (withIp [2, 3, 4, 5, 6, 7, 8, 1]) (instanceOf paramsStdSet 0x053) 0xB5 = 0x8E := by decide +kernel

/-- R81 and section 4.2: the default set is valid, `PARAMS_LEG` is usable and not valid, and a set with an `IP` that is
no bijection builds no engine. -/
theorem test_parameter_sets : paramsValid paramsStdSet = true ∧ usable paramsLegSet = true ∧
    paramsValid paramsLegSet = false ∧ legacyDraw paramsLegSet = false ∧ genLegacy 10 paramsLegSet.p10 = true ∧
    buildParams (withIp [1, 1, 3, 4, 5, 6, 7, 8]) = none := by decide

/-! ## The commands (sections 3.6, 3.8 and 5), one step each -/

theorem test_ldkey_loads : keyState (decode 0x1053) State.reset = some (true, 0, some (0x33, 0x2A)) ∧
    answer (decode 0x1053) State.reset = some [0x0000] := by decide

/-- Section 3.8: the low bits of `0x1453` are not loaded, and a loaded key stays. -/
theorem test_ldkey_kx : keyState (decode 0x1453) State.reset = some (false, 2, none) ∧
    keyState (decode 0x1453) (loaded 0x282) = some (true, 2, some (0xA4, 0x43)) := by decide

/-- Program P5: a strict build with invalid tables. -/
theorem test_ldkey_strict : keyState (decode 0x1053) (State.resetOf paramsLeg true) = some (false, 4, none) ∧
    answer (decode 0x1053) (State.resetOf paramsLeg true) = some [0x4000] := by decide

/-- Program P5 with `STRICT` false. -/
theorem test_ldkey_not_strict :
    keyState (decode 0x1053) (State.resetOf paramsLeg false) = some (true, 0, some (0x00, 0x07)) := by decide

theorem test_enc : answer (decode 0x2097) (loaded 0x282) = some [0x0038] ∧
    keyState (decode 0x2097) (loaded 0x282) = some (true, 0, some (0xA4, 0x43)) := by decide +kernel

/-- Section 3.8: the operand check comes before the key check. -/
theorem test_enc_faults : answer (decode 0x21B5) State.reset = some [0x3000] ∧
    keyState (decode 0x20B5) State.reset = some (false, 6, none) := by decide

theorem test_dec : answer (decode 0x30B5) (loaded 0x053) = some [0x009D] := by decide +kernel
theorem test_dec_faults : answer (decode 0x30E0) (faulted 6) = some [0x6000] ∧
    keyState (decode 0x3100) State.reset = some (false, 3, none) := by decide

/-- Programs P1 and P4, and `PV = 0` in P5. -/
theorem test_stat : answer (decode 0x4000) (loaded 0x053) = some [0x00C0] ∧
    answer (decode 0x4000) (faulted 1) = some [0x0041] ∧
    answer (decode 0x4000) (State.resetOf paramsLeg true) = some [0x0000] := by decide
theorem test_stat_arg : answer (decode 0x4001) State.reset = some [0x1000] := by decide

/-- Program P2: `CLR` ends the instance and leaves `ERR`. -/
theorem test_clr : keyState (decode 0x5000) { loaded 0x282 with engine := { (loaded 0x282).engine with err := 6 } } =
    some (false, 6, none) ∧ answer (decode 0x5000) State.reset = some [0x0000] := by decide
theorem test_clr_arg : keyState (decode 0x5001) (loaded 0x053) = some (true, 1, some (0x33, 0x2A)) := by decide

theorem test_illegal0 : answer (decode 0x0000) State.reset = some [0x1000] := by decide
theorem test_illegal67 : answer (decode 0x6000) (loaded 0x053) = some [0x1000] := by decide
theorem test_illegal8F : keyState (decode 0xFFFF) (loaded 0x053) = some (true, 1, some (0x33, 0x2A)) := by decide

/-- `ERR` is first-fault sticky (section 3.8). -/
theorem test_sticky : keyState (decode 0x21B5) (faulted 1) = some (false, 1, none) := by decide

/-! ## The text procedures (section 3.9) -/

theorem test_enctext : answer (.enctext [0x48, 0x69]) (loaded 0x282) = some [0x00E0, 0x00C7] ∧
    returnedText (exec (.enctext [0x48, 0x69]) (loaded 0x282)) = some ([0xE0, 0xC7], .returned) := by decide +kernel
theorem test_enctext_fails : answer (.enctext [0x48, 0x100]) (loaded 0x282) = some [] ∧
    returnedText (exec (.enctext [0x48, 0x100]) (loaded 0x282)) = some ([], .failed 5) := by decide
theorem test_dectext : answer (.dectext [0xE0, 0xC7]) (loaded 0x282) = some [0x0048, 0x0069] ∧
    returnedText (exec (.dectext [0xE0, 0xC7]) (loaded 0x282)) = some ([0x48, 0x69], .returned) := by decide +kernel
theorem test_dectext_no_key : answer (.dectext [0xE0, 0xC7]) State.reset = some [0x6000] ∧
    returnedText (exec (.dectext [0xE0, 0xC7]) State.reset) = some ([], .failed 6) := by decide

/-! ## The assembler and the listing (R65, R66, R67; program P4's and P1's lines) -/

theorem test_assemble_binary :
    assembleLine "LDKEY 0b0001010011; 0x1053 -> 0x0000   KV=1".toList = .ok [0x1053] := by decide
theorem test_assemble_hex : assembleLine "ENC   0xB5        ; 0x20B5 -> 0x009B".toList = .ok [0x20B5] := by decide
theorem test_assemble_list : assembleLine "DEC [1,0,1,1,0,1,0,1]".toList = .ok [0x30B5] := by decide
theorem test_assemble_short_list : assembleLine "ENC [1,0,1]".toList = .error .wrongListLength := by decide
theorem test_assemble_word : assembleLine ".word 0x1453".toList = .ok [0x1453] := by decide
theorem test_assemble_text : assembleLine "ENCTEXT \"Hi\"".toList = .ok [0x2048, 0x2069] := by decide
theorem test_list_response : listResponse 0x009B = "-> 0x009B".toList := by decide

/-! ## Steps -/

/-- The placed word is the one the very next step runs. -/
theorem test_withFetchWord :
    (nextOf (step (State.reset.withFetchWord 16 0x1053))).map (fun t => (t.engine.cipher.map (·.k1), t.responses)) =
      some (some 0x33, [0x0000]) := by decide

/-- A reset gives no response word (R170). -/
theorem test_reset_step :
    (nextOf (step ((loaded 0x282).present [.event .reset]))).map (fun t => (t.engine.kv, t.responses)) =
      some (false, []) := by decide

/-- Section 3.9's first character, resumed: one response, and the call has returned (R143). -/
theorem test_resume :
    (nextOf (step ({ loaded 0x282 with texts := [openCall .encrypt [0x48]] }.present [.resumeText 0]))).map
      (fun t => (t.responses, t.texts.map (fun c => (c.out, c.status)))) =
      some ([0x00E0], [([0xE0], .returned)]) := by decide +kernel

/-- Beginning a call gives no response (R143). -/
theorem test_begin :
    (nextOf (step ((loaded 0x282).present [.beginText .encrypt [0x48]]))).map (fun t => t.responses) = some [] := by
  decide

/-- A fault that a reset has taken out of `ERR` is still recorded (R159). -/
theorem test_fault_recorded :
    (runActs [.event (.command 0x0000), .event .reset] State.reset).faultRecorded = true ∧
    (runActs [.event (.command 0x4000), .event .reset] State.reset).faultRecorded = false := by decide

/-! ## Inputs that meet the hypotheses of the statements in Certificates/Slice0/Obligations.lean

Each theorem is named after its statement. Where a statement has several clauses, each conjunct meets one. -/

theorem witness_DecodeOfEncodeIsTheCommand : encodeWord (.ldkey 3 0x3FF) = some 0x1FFF := by decide

theorem witness_DecoderReadsOpAndTheOperandFields :
    (0x0FFF#16).toNat / 4096 = 0 ∧ (0x1000#16).toNat / 4096 = 1 ∧ (0x2FFF#16).toNat / 4096 = 2 ∧
    (0x3000#16).toNat / 4096 = 3 ∧ (0x4FFF#16).toNat / 4096 = 4 ∧ (0x5000#16).toNat / 4096 = 5 ∧
    ((0x6000#16).toNat / 4096 = 6 ∨ (0x6000#16).toNat / 4096 = 7) ∧
    ((0x7FFF#16).toNat / 4096 = 6 ∨ (0x7FFF#16).toNat / 4096 = 7) ∧ 8 ≤ (0x8000#16).toNat / 4096 ∧
    8 ≤ (0xFFFF#16).toNat / 4096 := by decide

theorem witness_OpcodeTableRowsAgreeWithTheDecoder :
    (OpcodeRow.mk "STAT" 0xFFFF 0x4000) ∈ opcodeRows ∧ ∀ r ∈ opcodeRows, r.matchesWord 0x4001 = false := by decide

theorem witness_TextExpandsToOneBlockCommandPerCharacter :
    (∀ c ∈ [0, 255], c ≤ 255) ∧ ∃ c ∈ [255, 256], 255 < c := by decide

theorem witness_AssembledNumbersDecodeToTheirOperand : (4095 : Nat) ≤ 4095 := by decide

theorem witness_AssembledBitListsAreTheOperandVector :
    (List.replicate 10 true).length = 10 ∧ (List.replicate 8 true).length = 8 ∧
    (List.replicate 9 true).length ≠ 10 ∧ (List.replicate 9 true).length ≠ 8 := by decide

theorem witness_PermMovesTheSourceBits :
    paramsStdSet.p8.length = 8 ∧ ∀ x ∈ paramsStdSet.p8, 1 ≤ x ∧ x ≤ 10 := by decide

theorem witness_PermIsItsBitReorderMatrix :
    (paramsStdSet.ip.length = 8 ∧ ∀ x ∈ paramsStdSet.ip, 1 ≤ x ∧ x ≤ 8) ∧ isBijection 8 paramsStdSet.ip = true := by
  decide

theorem witness_PermLaws : isBijection 10 paramsStdSet.p10 = true ∧
    (paramsLegSet.p4.length = 4 ∧ (∀ x ∈ paramsLegSet.p4, 1 ≤ x ∧ x ≤ 4) ∧
      isBijection 4 paramsLegSet.p4 = false) := by decide

theorem witness_RolLaws : 1 ≤ 5 ∧ 4 < 5 := by decide

theorem witness_OnlyUsableSetsBuildAnEngine :
    usable paramsLegSet = true ∧ ∃ p, buildParams paramsLegSet = some p := ⟨by decide, paramsLeg, by decide⟩

/-- `P8` of a certified draw is a bijection of 1 to 8 (R85). -/
theorem witness_CertifiedDrawsAreValid : certifiedDraw { paramsStdSet with
    p8 := [6, 3, 7, 4, 8, 5, 1, 2], box1 := [[1, 0, 3, 2], [3, 2, 1, 0], [0, 2, 1, 3], [3, 1, 0, 2]],
    box2 := [[0, 1, 2, 3], [2, 0, 1, 3], [3, 0, 1, 2], [2, 1, 0, 3]] } = true := by decide

theorem witness_SubkeyBitsAreKeyBits :
    paramsStd.set.p8[1]? = some 3 ∧ paramsStd.set.p8[7]? = some 9 := by decide

theorem witness_BlockClosedForm : perm 8 paramsStdSet.ip 0b10010111#8 = 0b0101#4 ++ 0b1101#4 := by decide

theorem witness_LdkeyLoadsTheKeyOrFaults : (3#2 ≠ 0#2) ∧
    ((State.resetOf paramsLeg true).engine.strict = true ∧
      paramsValid (State.resetOf paramsLeg true).engine.params.set = false) ∧
    (State.reset.engine.strict = true ∧ paramsValid State.reset.engine.params.set = true) ∧
    (State.resetOf paramsLeg false).engine.strict = false := by decide

theorem witness_EncAnswersTheCiphertextOrFaults : (15#4 ≠ 0#4) ∧ State.reset.engine.kv = false ∧
    (loaded 0x3FF).engine.cipher = some (instanceOf paramsStdSet 0x3FF) := by decide

theorem witness_DecAnswersThePlaintextOrFaults : (1#4 ≠ 0#4) ∧ (faulted 6).engine.kv = false ∧
    (loaded 0x000).engine.cipher = some (instanceOf paramsStdSet 0x000) := by decide

theorem witness_StatAnswersTheStatusByte : (0x001#12 ≠ 0#12) ∧ (0x800#12 ≠ 0#12) := by decide

theorem witness_ClrDropsTheInstance : (0xFFF#12 ≠ 0#12) ∧ (loaded 0x053).engine.kv = true := by decide

theorem witness_IllegalOpcodesRaiseIllegalCommand :
    (0x0FFF#16).toNat / 4096 = 0 ∧ 6 ≤ (0x6000#16).toNat / 4096 ∧ 6 ≤ (0xFFFF#16).toNat / 4096 := by decide

theorem witness_EnctextReturnsTheCiphertextOrFails :
    ((∀ x ∈ [0, 255], x ≤ 255) ∧ (loaded 0x282).engine.cipher = some (instanceOf paramsStdSet 0x282)) ∧
    ((∀ x ∈ [255], x ≤ 255) ∧ [255] ≠ [] ∧ State.reset.engine.cipher = none) ∧ (∃ x ∈ [0x48, 256], 255 < x) := by
  decide

theorem witness_DectextReturnsThePlaintextOrFails :
    ((∀ x ∈ [0xE0, 0xC7], x ≤ 255) ∧ (loaded 0x282).engine.cipher = some (instanceOf paramsStdSet 0x282)) ∧
    ((∀ x ∈ [0xE0], x ≤ 255) ∧ [0xE0] ≠ [] ∧ (faulted 1).engine.cipher = none) ∧ (∃ x ∈ [256], 255 < x) := by
  decide

theorem witness_EncThenDecGivesTheBlockBack : (loaded 0x053).engine.kv = true := by decide

theorem witness_TextRoundTrip : (loaded 0x282).engine.kv = true ∧ ∀ x ∈ [0x48, 0x69], x ≤ 255 := by decide

/-- `ENC` with no key: a command that faults. -/
theorem witness_FaultingCommandChangesOnlyErr : ∃ t, exec (decode 0x20B5) State.reset = .next t ∧
    t.responses = State.reset.responses ++ [0x6000] ∧ rspStatus 0x6000 ≠ 0#4 := ⟨_, rfl, by decide, by decide⟩

theorem witness_WordChecksComeBeforeStateChecks :
    (∃ t, exec (decode 0x21B5) State.reset = .next t ∧ t.responses = State.reset.responses ++ [0x3000] ∧
      (decode 0x21B5).wellFormed = false) ∧
    (∃ t, exec (decode 0x20B5) State.reset = .next t ∧ t.responses = State.reset.responses ++ [0x6000] ∧
      (decode 0x20B5).wellFormed = true) ∧
    (∃ t, exec (decode 0x13FF) (State.resetOf paramsLeg true) = .next t ∧
      t.responses = (State.resetOf paramsLeg true).responses ++ [0x4000] ∧ (decode 0x13FF).wellFormed = true) :=
  ⟨⟨_, rfl, by decide, by decide⟩, ⟨_, rfl, by decide, by decide⟩, ⟨_, rfl, by decide, by decide⟩⟩

/-- Actions that neither load, clear nor reset, on a machine with a key. -/
theorem witness_OnlyLdkeyClrAndResetChangeTheKey :
    ∀ a ∈ [HostAct.event (.command 0x20B5), .event (.command 0x0FFF), .callText .encrypt [0x48],
      .beginText .decrypt [1], .resumeText 1], a.readsOnly = true := by decide

/-- Actions without a reset on a machine with a fault, and a command that faults. -/
theorem witness_ErrKeepsTheFirstCodeUntilReset :
    ((∀ a ∈ [HostAct.event (.command 0x1053), .callText .encrypt [256]], a ≠ .event .reset) ∧
      (faulted 6).engine.err ≠ 0#4) ∧
    (∃ t, exec (decode 0x0000) State.reset = .next t ∧ t.responses = State.reset.responses ++ [0x1000] ∧
      rspStatus 0x1000 ≠ 0#4) := ⟨by decide, _, rfl, by decide, by decide⟩

theorem witness_ReadersDoNotDisturbOneAnother :
    (∀ a ∈ [HostAct.event (.command 0x4000), .callText .decrypt [0xE0]], a.readsOnly = true) ∧
    (loaded 0x282).engine.cipher = some (instanceOf paramsStdSet 0x282) := by decide

/-- A running call with its last character to issue: with a key loaded the command succeeds, with none it fails. -/
def texting (k : Option CipherInstance) : State where
  engine := { State.reset.engine with cipher := k }
  pending := []
  responses := []
  texts := [{ dir := .encrypt, todo := [0x48], out := [], status := .running }]

theorem witness_ResumedTextEqualsTheWholeCall :
    ((∃ c ∈ [0x48, 256], 255 < c) ∧ ∀ c ∈ [0x48, 255], c ≤ 255) ∧
    (∀ k, ∃ call, (texting k).texts[0]? = some call ∧ call.status = .running ∧ call.todo = 0x48 :: []) ∧
    (rspStatus (issueResponse .encrypt 0x48 (texting (some (instanceOf paramsStdSet 0x282)))) = 0#4 ∧
      rspStatus (issueResponse .encrypt 0x48 (texting none)) ≠ 0#4) :=
  ⟨by decide, fun _ => ⟨_, rfl, rfl, rfl⟩, by decide +kernel⟩

theorem witness_StrictInvalidBuildNeverLoadsAKey : (State.resetOf paramsLeg true).engine.strict = true ∧
    paramsValid (State.resetOf paramsLeg true).engine.params.set = false ∧
    (State.resetOf paramsLeg true).engine.kv = false := by decide

/-- Two machines with different `KEY` and the same subkeys, about to run an `ENC`. -/
theorem witness_KeyRegisterIsNeverObserved :
    let p := (loaded 0x053).present [.event (.command 0x20B5)]
    let q := { p with engine := { p.engine with cipher := some { instanceOf paramsStdSet 0x053 with key := 0 } } }
    p ≠ q ∧ p.sameButKey q ∧ (∃ t, step p = .next t) ∧ ∃ t, step q = .next t :=
  ⟨by decide, ⟨⟨rfl, rfl, rfl, rfl, rfl⟩, rfl, rfl, rfl⟩, ⟨_, rfl⟩, ⟨_, rfl⟩⟩

theorem witness_ResetLeavesTheResetState :
    ((loaded 0x282).present [.event .reset, .event (.command 0x4000)]).pending =
      .event .reset :: [.event (.command 0x4000)] := rfl

theorem witness_FirstCommandAfterReset : paramsValid paramsStd.set = true ∧ strictDefault = true := by decide

theorem witness_StepRunsTheDecodedInstruction :
    (State.reset.present [.event (.command 0x1053)]).pending = .event (.command 0x1053) :: [] ∧
    (State.reset.present [.resumeText 0, .event .reset]).pending = .resumeText 0 :: [.event .reset] ∧
    decodeTableWord 16 0x1053 = some (.ldkey 0 0x053) := by decide

theorem witness_EveryStepAnswersANextState : State.reset.pending = [] := rfl

/-- A loaded machine with two responses, a returned text and a failed one, and a word to run. -/
def worked : State where
  engine := { params := paramsStd, strict := true, cipher := some (instanceOf paramsStdSet 0x282), err := 6 }
  pending := [.event (.command 0x1053)]
  responses := [0x6000, 0x00E0]
  texts := [{ dir := .encrypt, todo := [], out := [0xE0], status := .returned }, unsupportedCall .decrypt]

theorem worked_inv : worked.inv := by
  refine ⟨⟨by decide, fun c hc => ⟨?_, fun _ => ?_⟩⟩, ?_, ?_⟩
  · obtain rfl := Option.some.inj hc
    rfl
  · decide
  · simp [worked, responseFormed, rspZero, rspStatus, rspData, engineCode]
  · simp [worked, TextCall.formed, unsupportedCall, Fault.code]

theorem witness_StepKeepsTheInvariant : worked.inv ∧ ∃ t, step worked = .next t := ⟨worked_inv, _, rfl⟩

end Sys2Proof.Tests
end

section
/-! The step by the action at the head of the port (R185), and the reset event (R170, R171, R172). -/

namespace Sys2Proof.Machine

/-- A step takes the next action off the port and performs it (R185). -/
theorem step_of_pending {s : State} {a : HostAct} {rest : List HostAct} (h : s.pending = a :: rest) :
    step s = perform a { s with pending := rest } := by
  rw [step, takeNext, h]

/-- The reset event drops the cipher instance and the recorded fault, keeps the build and gives no response (R170,
R171, R172). -/
theorem perform_reset (s : State) :
    perform (.event .reset) s = .next { s with engine := { s.engine with cipher := none, err := 0 } } := rfl

@[simp] theorem resetOf_kv (p : Params) (strict : Bool) : (State.resetOf p strict).engine.kv = false := rfl

/-- The default build has the standard tables (R7) and `STRICT` true (R8), with no key and no fault (R33). -/
theorem reset_engine : State.reset.engine = { params := paramsStd, strict := true, cipher := none, err := 0 } := rfl

/-- Settles O51: the step performs the reset event, and the power-up state is the one the default build resets to. -/
theorem resetLeavesTheResetState : Obligations.ResetLeavesTheResetState := by
  refine ⟨fun s rest hnext => ?_, reset_engine, resetOf_kv paramsStd strictDefault⟩
  rw [step_of_pending hnext, perform_reset]

end Sys2Proof.Machine
end

section
/-! What each host action leads to, and runs as chains of actions (R185): an invariant of runs is a fact about one
engine command. -/

namespace Sys2Proof.Machine

/-- The state after one host action. -/
def actResult : HostAct → State → State
  | .event (.command w), s => s.transact (commandOf (decode w))
  | .event .reset, s => { s with engine := s.engine.resetEvent }
  | .callText dir text, s => runText dir text s
  | .beginText dir text, s => beginText dir text s
  | .resumeText j, s => resumeText j s

/-- Every host action answers its result (R184). -/
theorem perform_eq_next (a : HostAct) (s : State) : perform a s = .next (actResult a s) := by
  cases a with
  | event e =>
    cases e with
    | command w => exact exec_commandWord (decode_isCommandWord w) s
    | reset => rfl
  | callText dir text => cases dir <;> rfl
  | beginText dir text => rfl
  | resumeText j => rfl

/-- A step with nothing pending leaves the state, and any other gives the result of the action at the port (R185). -/
theorem step_cases {s t : State} (h : step s = .next t) :
    (s.pending = [] ∧ t = s) ∨ ∃ a rest, s.pending = a :: rest ∧ t = actResult a (s.present rest) := by
  cases hp : s.pending with
  | nil =>
    rw [step, takeNext, hp] at h
    exact .inl ⟨rfl, (Host.Outcome.next.inj h).symm⟩
  | cons a rest =>
    rw [step_of_pending hp, perform_eq_next] at h
    exact .inr ⟨a, rest, rfl, (Host.Outcome.next.inj h).symm⟩

@[simp] theorem runActs_nil (s : State) : runActs [] s = s := rfl

@[simp] theorem runActs_cons (a : HostAct) (acts : List HostAct) (s : State) :
    runActs (a :: acts) s = runActs acts (actResult a s) := by
  rw [runActs, perform_eq_next]

/-- Resuming a text call does nothing, or issues the next character's command of a running call (R143). -/
theorem resumeText_cases (j : Nat) (s : State) :
    resumeText j s = s ∨ ∃ call c cs, s.texts[j]? = some call ∧ call.status = .running ∧ call.todo = c :: cs ∧
      resumeText j s = { s.transact (issueCommand call.dir c) with
        texts := s.texts.set j (call.afterResponse cs (issueResponse call.dir c s)) } := by
  unfold resumeText
  split
  · exact .inl rfl
  · next call hcall =>
    split
    · next c cs hstatus htodo => exact .inr ⟨call, c, cs, hcall, hstatus, htodo, rfl⟩
    all_goals exact .inl rfl

/-- A relation of states that every action of a run keeps, and that chains, holds across the run. -/
theorem runActs_relates {R : State → State → Prop} (refl : ∀ s, R s s) (chain : ∀ a b c, R a b → R b c → R a c)
    {acts : List HostAct} (act : ∀ a ∈ acts, ∀ s, R s (actResult a s)) (s : State) : R s (runActs acts s) := by
  induction acts generalizing s with
  | nil => exact refl s
  | cons a acts ih =>
    rw [runActs_cons]
    exact chain _ _ _ (act a (by simp) s) (ih (fun b hb => act b (by simp [hb])) _)

section Relates
variable {R : Engine → Engine → Prop} (refl : ∀ e, R e e) (chain : ∀ a b c, R a b → R b c → R a c)
  (issue : ∀ dir c e, R e (issueCommand dir c e).1)
include refl chain issue

/-- A relation of engines that the commands of a text procedure keep holds across every action whose own command or
reset keeps it. -/
theorem actResult_relates {a : HostAct} (command : ∀ w, a = .event (.command w) → ∀ e, R e (commandOf (decode w) e).1)
    (reset : a = .event .reset → ∀ e, R e e.resetEvent) (s : State) : R s.engine (actResult a s).engine := by
  cases a with
  | event e =>
    cases e with
    | command w => exact command w rfl s.engine
    | reset => exact reset rfl s.engine
  | callText dir text =>
    change R _ (runText dir text s).engine
    unfold runText
    split
    · exact refl _
    · exact textLoop_relates refl chain issue dir text [] s
  | beginText dir text => exact refl _
  | resumeText j =>
    change R _ (resumeText j s).engine
    obtain h | ⟨call, c, cs, _, _, _, h⟩ := resumeText_cases j s
    · rw [h]
      exact refl _
    · rw [h]
      exact issue call.dir c s.engine

/-- The same across a run, for the command words and the resets that stand in it. -/
theorem runActs_engine_relates {acts : List HostAct}
    (command : ∀ w, .event (.command w) ∈ acts → ∀ e, R e (commandOf (decode w) e).1)
    (reset : .event .reset ∈ acts → ∀ e, R e e.resetEvent) (s : State) : R s.engine (runActs acts s).engine :=
  runActs_relates (R := fun s t => R s.engine t.engine) (fun _ => refl _) (fun _ _ _ => chain _ _ _)
    (fun _ ha => actResult_relates refl chain issue (fun w hw => command w (hw ▸ ha)) (fun hr => reset (hr ▸ ha))) s

end Relates

/-- An action only adds responses after the earlier ones (R55). -/
theorem responses_isPrefix_actResult (a : HostAct) (s : State) :
    s.responses <+: (actResult a s).responses := by
  obtain ⟨t, ht, hpre, -⟩ := perform_ports a s
  rw [perform_eq_next] at ht
  rwa [Host.Outcome.next.inj ht]

/-- A run only adds responses after the earlier ones (R55, R185). -/
theorem responses_isPrefix_runActs (acts : List HostAct) (s : State) : s.responses <+: (runActs acts s).responses :=
  runActs_relates (R := fun s t => s.responses <+: t.responses) (fun _ => List.prefix_rfl)
    (fun _ _ _ => List.IsPrefix.trans) (fun a _ => responses_isPrefix_actResult a) s

end Sys2Proof.Machine
end

section
/-! The layout of the response word (R57) and of the status byte (R28). -/

namespace Sys2Proof.Machine

@[simp] theorem rspStatus_respond (st : BitVec 4) (data : Byte) : rspStatus (respond st data) = st :=
  BitVec.extractLsb'_append_eq_left

@[simp] theorem rspZero_respond (st : BitVec 4) (data : Byte) : rspZero (respond st data) = 0 := by
  rw [rspZero, respond, BitVec.extractLsb'_append_eq_of_add_le (by decide), BitVec.extractLsb'_append_eq_left]
  rfl

@[simp] theorem rspData_respond (st : BitVec 4) (data : Byte) : rspData (respond st data) = data := by
  rw [rspData, respond, BitVec.extractLsb'_append_eq_of_add_le (by decide), BitVec.extractLsb'_append_eq_right]

/-- Settles O40: each bit lies in one of the four concatenated parts. -/
theorem statusByteLayout : Obligations.StatusByteLayout := by
  intro e
  simp only [Engine.statusByte, BitVec.getLsbD_append]
  refine ⟨by simp [Engine.kv], by simp [Engine.pv], rfl, rfl, fun i hi => ?_⟩
  simp [hi, show i < 6 by omega, show i < 7 by omega]

end Sys2Proof.Machine
end

section
/-! Which commands write which register: the build (R22), the key registers (R25, R26, R29) and `ERR` (R27). -/

namespace Sys2Proof.Machine

/-- No command writes `PARAMS` or `STRICT` (R22). -/
theorem commandOf_build (i : Instr) (e : Engine) :
    (commandOf i e).1.params = e.params ∧ (commandOf i e).1.strict = e.strict := by
  obtain ⟨f, h, -⟩ | ⟨_, _, _, hparams, hstrict⟩ := commandOf_cases i e
  · rw [h]
    exact ⟨rfl, rfl⟩
  · exact ⟨hparams, hstrict⟩

/-- A recorded fault stays whatever the command (R27). -/
theorem commandOf_err_sticky (i : Instr) {e : Engine} (he : e.err ≠ 0#4) : (commandOf i e).1.err = e.err := by
  obtain ⟨f, h, -⟩ | ⟨_, _, herr, -⟩ := commandOf_cases i e
  · rw [h, raise_err, stickyErr, if_neg he]
  · exact herr

/-- What a command can do to the key registers: nothing, the load of `LDKEY` on a build that lets it, or the clear of
`CLR` (R102, R103, R146). -/
theorem commandOf_cipher_cases (i : Instr) (e : Engine) :
    (commandOf i e).1.cipher = e.cipher ∨
    (∃ kx k, i = .ldkey kx k ∧ (commandOf i e).1.cipher = some (instanceOf e.params.set k) ∧
      (e.strict = true → paramsValid e.params.set = true)) ∨
    (∃ arg, i = .clr arg ∧ (commandOf i e).1.cipher = none) := by
  cases i with
  | ldkey kx k =>
    obtain h | ⟨h, hvalid⟩ := ldkeyCommand_cipher kx k e
    · exact .inl h
    · exact .inr (.inl ⟨kx, k, rfl, h, hvalid⟩)
  | enc bx b => exact .inl (blockCommand_cipher encryptBlock bx b e)
  | dec bx b => exact .inl (blockCommand_cipher decryptBlock bx b e)
  | stat arg =>
    simp only [commandOf, statCommand]
    split <;> exact .inl rfl
  | clr arg =>
    simp only [commandOf, clrCommand]
    split
    · exact .inl rfl
    · exact .inr (.inr ⟨arg, rfl, rfl⟩)
  | illegal0 _ | illegal67 _ | illegal8F _ | enctext _ | dectext _ => exact .inl rfl

/-- Only a word with opcode 1 is an `LDKEY` (R61). -/
theorem opField_of_decode_ldkey {w : Word} {kx : BitVec 2} {k : BitVec 10} (h : decode w = .ldkey kx k) :
    opField w = 1 := by
  unfold decode at h
  split at h
  case h_2 hop => exact BitVec.eq_of_toNat_eq hop
  all_goals contradiction

/-- Only a word with opcode 5 is a `CLR` (R61). -/
theorem opField_of_decode_clr {w : Word} {arg : BitVec 12} (h : decode w = .clr arg) : opField w = 5 := by
  unfold decode at h
  split at h
  case h_6 hop => exact BitVec.eq_of_toNat_eq hop
  all_goals contradiction

/-- A word that is no load and no clear leaves the key registers (R29). -/
theorem commandOf_cipher_of_readsOnly {w : Word} (h : (HostAct.event (.command w)).readsOnly = true) (e : Engine) :
    (commandOf (decode w) e).1.cipher = e.cipher := by
  obtain ⟨hload, hclear⟩ : opField w ≠ 1 ∧ opField w ≠ 5 := by simpa [HostAct.readsOnly] using h
  obtain hkept | ⟨_, _, hi, -⟩ | ⟨_, hi, -⟩ := commandOf_cipher_cases (decode w) e
  · exact hkept
  · exact absurd (opField_of_decode_ldkey hi) hload
  · exact absurd (opField_of_decode_clr hi) hclear

/-- A character's command leaves the key registers (R131). -/
theorem issueCommand_cipher (dir : Direction) (c : Nat) (e : Engine) :
    (issueCommand dir c e).1.cipher = e.cipher := by
  cases dir with
  | encrypt => exact blockCommand_cipher encryptBlock 0 (charBlock c) e
  | decrypt => exact blockCommand_cipher decryptBlock 0 (charBlock c) e

/-- Settles O44: no command and no reset writes the build. -/
theorem buildNeverChanges : Obligations.BuildNeverChanges := fun _ s =>
  runActs_engine_relates (R := fun e e' => e'.params = e.params ∧ e'.strict = e.strict) (fun _ => ⟨rfl, rfl⟩)
    (fun _ _ _ ⟨hp, hs⟩ ⟨hp', hs'⟩ => ⟨hp'.trans hp, hs'.trans hs⟩)
    (fun dir c e => issueCommand_eq dir c ▸ commandOf_build _ e) (fun w _ e => commandOf_build (decode w) e)
    (fun _ _ => ⟨rfl, rfl⟩) s

/-- Settles O45: the words and the characters' commands that may stand in the run leave the key registers, and no reset
stands in it. -/
theorem onlyLdkeyClrAndResetChangeTheKey : Obligations.OnlyLdkeyClrAndResetChangeTheKey := fun _ s hread =>
  runActs_engine_relates (R := fun e e' => e'.cipher = e.cipher) (fun _ => rfl) (fun _ _ _ h h' => h'.trans h)
    issueCommand_cipher (fun _ hw e => commandOf_cipher_of_readsOnly (hread _ hw) e)
    (fun hreset => absurd (hread _ hreset) (by decide)) s

/-- A non-zero `ERR` stays over every run without a reset (R27). -/
theorem runActs_err_sticky {acts : List HostAct} (hacts : ∀ a ∈ acts, a ≠ .event .reset) {s : State}
    (he : s.engine.err ≠ 0#4) : (runActs acts s).engine.err = s.engine.err := by
  refine runActs_engine_relates (R := fun e e' => e.err ≠ 0#4 → e'.err = e.err) (fun _ _ => rfl)
    (fun a b c hab hbc ha => ?_) (fun dir c e => issueCommand_eq dir c ▸ commandOf_err_sticky _)
    (fun w _ e => commandOf_err_sticky (decode w)) (fun hreset => absurd rfl (hacts _ hreset)) s he
  have hb : b.err = a.err := hab ha
  exact (hbc (hb ▸ ha)).trans hb

/-- A fault is recorded in `ERR` or in a response (R159). -/
theorem faultRecorded_iff (s : State) :
    s.faultRecorded = true ↔ s.engine.err ≠ 0#4 ∨ ∃ r ∈ s.responses, rspStatus r ≠ 0#4 := by
  simp [State.faultRecorded]

/-- Settles O46: `ERR` is sticky under every command, and a run keeps the response that carries the fault. -/
theorem errKeepsTheFirstCodeUntilReset : Obligations.ErrKeepsTheFirstCodeUntilReset := by
  refine ⟨fun _ _ hacts he => runActs_err_sticky hacts he, faultRecorded_iff, fun acts w s t r _ hresp hst => ?_⟩
  have hmem : r ∈ t.responses := by simp [hresp]
  exact (faultRecorded_iff _).2 (.inr ⟨r, (responses_isPrefix_runActs acts t).subset hmem, hst⟩)

end Sys2Proof.Machine
end

section
/-! The invariant of every step (R26, R57, R103, R150, R155): the engine and the responses under one command, then the
records of the text calls (log entry 4). -/

namespace Sys2Proof.Machine

/-- A fault the engine raises gives a well-formed response (R57, R150). -/
theorem responseFormed_fault {f : Fault} (h : f ≠ .unsupportedCharacter) :
    responseFormed (respond f.code 0) = true := by
  simp [responseFormed, engineCode_code h]

/-- A success gives a well-formed response (R57). -/
theorem responseFormed_success (d : Byte) : responseFormed (respond 0 d) = true := by
  simp [responseFormed, engineCode]

/-- Every command's response is well formed (R57, R150). -/
theorem commandOf_responseFormed (i : Instr) (e : Engine) : responseFormed (commandOf i e).2 = true := by
  obtain ⟨f, h, hf⟩ | ⟨d, h, -⟩ := commandOf_cases i e
  · rw [h]
    exact responseFormed_fault hf
  · rw [h]
    exact responseFormed_success d

/-- Every command leaves an engine code in `ERR` (R150, R155). -/
theorem commandOf_engineCode (i : Instr) {e : Engine} (he : engineCode e.err = true) :
    engineCode (commandOf i e).1.err = true := by
  obtain ⟨f, h, hf⟩ | ⟨_, _, herr, -⟩ := commandOf_cases i e
  · rw [h, raise_err, stickyErr]
    split
    · exact engineCode_code hf
    · exact he
  · rwa [herr]

/-- Every command keeps the engine's invariant (R26, R103, R150). -/
theorem commandOf_inv (i : Instr) {e : Engine} (h : e.inv) : (commandOf i e).1.inv := by
  obtain ⟨herr, hkey⟩ := h
  obtain ⟨hparams, hstrict⟩ := commandOf_build i e
  refine ⟨commandOf_engineCode i herr, fun c hc => ?_⟩
  rw [hparams, hstrict]
  obtain hkept | ⟨_, k, -, hload, hvalid⟩ | ⟨_, -, hclear⟩ := commandOf_cipher_cases i e
  · exact hkey c (hkept ▸ hc)
  · obtain rfl := Option.some.inj (hload.symm.trans hc)
    exact ⟨rfl, hvalid⟩
  · rw [hclear] at hc
    contradiction

/-- With no key and no fault the invariant asks nothing more (R33, R171). -/
theorem inv_of_reset {e : Engine} (herr : e.err = 0) (hcipher : e.cipher = none) : e.inv :=
  ⟨by rw [herr]; rfl, by simp [hcipher]⟩

/-- A transaction of a command keeps the whole machine's invariant. -/
theorem transact_inv (i : Instr) {s : State} (h : s.inv) : (s.transact (commandOf i)).inv := by
  obtain ⟨hengine, hresponses, htexts⟩ := h
  refine ⟨commandOf_inv i hengine, fun r hr => ?_, htexts⟩
  obtain hr | rfl : r ∈ s.responses ∨ r = (commandOf i s.engine).2 := by simpa using hr
  · exact hresponses r hr
  · exact commandOf_responseFormed i s.engine

/-- A character's command keeps the whole machine's invariant. -/
theorem transact_issueCommand_inv (dir : Direction) (c : Nat) {s : State} (h : s.inv) :
    (s.transact (issueCommand dir c)).inv :=
  issueCommand_eq dir c ▸ transact_inv _ h

/-- Adding a well-formed record of a call keeps the invariant. -/
theorem addText_inv {s : State} {c : TextCall} (h : s.inv) (hc : c.formed = true) : (s.addText c).inv := by
  obtain ⟨hengine, hresponses, htexts⟩ := h
  refine ⟨hengine, hresponses, fun d hd => ?_⟩
  obtain hd | rfl : d ∈ s.texts ∨ d = c := by simpa using hd
  · exact htexts d hd
  · exact hc

/-- A block command with no extension bits answers status 0, or `KeyNotLoaded` (R125, R126). -/
theorem blockCommand_status (f : ParamSet → CipherInstance → BitVec 8 → BitVec 8) (b : BitVec 8) (e : Engine) :
    rspStatus (blockCommand f 0 b e).2 = 0#4 ∨ rspStatus (blockCommand f 0 b e).2 = Fault.keyNotLoaded.code := by
  have hlegal : operandReserved (0 : BitVec 4) = false := rfl
  rw [blockCommand, hlegal]
  cases e.cipher with
  | none => exact .inr (rspStatus_respond _ _)
  | some c => exact .inl (rspStatus_respond _ _)

/-- A character's command that faults does so for want of a key (R137, R156). -/
theorem issueResponse_status {dir : Direction} {c : Nat} {s : State} (h : rspStatus (issueResponse dir c s) ≠ 0#4) :
    rspStatus (issueResponse dir c s) = Fault.keyNotLoaded.code := by
  cases dir with
  | encrypt => exact (blockCommand_status encryptBlock (charBlock c) s.engine).resolve_left h
  | decrypt => exact (blockCommand_status decryptBlock (charBlock c) s.engine).resolve_left h

/-- The loop of a text procedure keeps the invariant, and the record it ends with is well formed (R137, U14). -/
theorem textLoop_inv (dir : Direction) (text : List Nat) (out : List Byte) {s : State} (h : s.inv) :
    (textLoop dir text out s).1.inv ∧ (textLoop dir text out s).2.formed = true := by
  induction text generalizing out s with
  | nil => exact ⟨h, rfl⟩
  | cons c cs ih =>
    have hnext : (s.transact (issueCommand dir c)).inv := transact_issueCommand_inv dir c h
    rw [textLoop]
    split
    · next hfault => exact ⟨hnext, by simp [TextCall.formed, issueResponse_status hfault]⟩
    · exact ih _ hnext

/-- A whole text procedure keeps the invariant (R137, R141). -/
theorem runText_inv (dir : Direction) (text : List Nat) {s : State} (h : s.inv) : (runText dir text s).inv := by
  unfold runText
  split
  · exact addText_inv h rfl
  · obtain ⟨hloop, hcall⟩ := textLoop_inv dir text [] h
    exact addText_inv hloop hcall

/-- A call just begun is well formed (R141). -/
theorem openCall_formed (dir : Direction) (text : List Nat) : (openCall dir text).formed = true := by
  unfold openCall
  split
  · rfl
  · next hnarrow =>
    cases text with
    | nil => rfl
    | cons c cs => simpa [TextCall.formed] using hnarrow

/-- A running call is well formed after its next response too (R143). -/
theorem afterResponse_formed {call : TextCall} {c : Nat} {cs : List Nat} (hrunning : call.status = .running)
    (htodo : call.todo = c :: cs) (h : call.formed = true) (s : State) :
    (call.afterResponse cs (issueResponse call.dir c s)).formed = true := by
  have hnarrow : hasWideChar cs = false := by
    have : hasWideChar (c :: cs) = false := by simpa [TextCall.formed, hrunning, htodo] using h
    exact (Bool.or_eq_false_iff.1 this).2
  unfold TextCall.afterResponse
  split
  · next hfault => simp [TextCall.formed, issueResponse_status hfault]
  · cases cs with
    | nil => rfl
    | cons d ds => simp [TextCall.formed, hnarrow]

/-- Resuming a call keeps the invariant (R143). -/
theorem resumeText_inv (j : Nat) {s : State} (h : s.inv) : (resumeText j s).inv := by
  obtain hsame | ⟨call, c, cs, hcall, hrunning, htodo, hissue⟩ := resumeText_cases j s
  · rwa [hsame]
  · obtain ⟨hengine, hresponses, htexts⟩ := transact_issueCommand_inv call.dir c h
    rw [hissue]
    refine ⟨hengine, hresponses, fun d hd => ?_⟩
    obtain hd | rfl := List.mem_or_eq_of_mem_set hd
    · exact htexts d hd
    · exact afterResponse_formed hrunning htodo (htexts call (List.mem_of_getElem? hcall)) s

/-- Every host action keeps the invariant. -/
theorem actResult_inv (a : HostAct) {s : State} (h : s.inv) : (actResult a s).inv := by
  cases a with
  | event e =>
    cases e with
    | command w => exact transact_inv (decode w) h
    | reset => exact ⟨inv_of_reset rfl rfl, h.2⟩
  | callText dir text => exact runText_inv dir text h
  | beginText dir text => exact addText_inv h (openCall_formed dir text)
  | resumeText j => exact resumeText_inv j h

/-- Settles O57: a step does nothing, or performs the action at the port. -/
theorem stepKeepsTheInvariant : Obligations.StepKeepsTheInvariant := by
  intro s t h hstep
  obtain ⟨-, rfl⟩ | ⟨a, rest, -, rfl⟩ := step_cases hstep
  · exact h
  · exact actResult_inv a h

/-- Settles O56: no key, no fault, no response and no text call. -/
theorem invariantHoldsAfterReset : Obligations.InvariantHoldsAfterReset := fun _ _ =>
  ⟨inv_of_reset rfl rfl, by simp, by simp⟩

end Sys2Proof.Machine
end

section
/-! `KEY` is not observed (R24, R31): two engines that differ at most there answer alike and stay so. -/

namespace Sys2Proof.Machine

/-- Two engine commands' results that the host cannot tell apart: the same response, and engines that differ at most in
`KEY` (R31). -/
def sameAnswer (x y : Engine × Word) : Prop := x.1.sameButKey y.1 ∧ x.2 = y.2

section Engine
variable {e₁ e₂ : Engine} (h : e₁.sameButKey e₂)
include h

/-- Both engines have no key loaded, or both have one with the same subkeys. -/
theorem sameButKey_cipher : (e₁.cipher = none ∧ e₂.cipher = none) ∨
    ∃ c₁ c₂, e₁.cipher = some c₁ ∧ e₂.cipher = some c₂ ∧ c₁.k1 = c₂.k1 ∧ c₁.k2 = c₂.k2 := by
  obtain ⟨-, -, -, hk1, hk2⟩ := h
  cases hc₁ : e₁.cipher with
  | none => simp_all
  | some c₁ =>
    rw [hc₁] at hk1 hk2
    obtain ⟨c₂, hc₂, hk1⟩ := Option.map_eq_some_iff.1 hk1.symm
    refine .inr ⟨c₁, c₂, rfl, hc₂, hk1.symm, ?_⟩
    simpa [hc₂] using hk2

theorem sameButKey_statusByte : e₁.statusByte = e₂.statusByte := by
  have hkv : e₁.kv = e₂.kv := by
    obtain ⟨h₁, h₂⟩ | ⟨_, _, h₁, h₂, -⟩ := sameButKey_cipher h <;>
      simp [Engine.kv, h₁, h₂]
  obtain ⟨hparams, -, herr, -⟩ := h
  rw [Engine.statusByte, Engine.statusByte, hkv, Engine.pv, Engine.pv, hparams, herr]

theorem raise_sameAnswer (f : Fault) : sameAnswer (raise f e₁) (raise f e₂) := by
  obtain ⟨hparams, hstrict, herr, hk1, hk2⟩ := h
  exact ⟨⟨hparams, hstrict, congrArg (stickyErr · f.code) herr, hk1, hk2⟩, rfl⟩

/-- `LDKEY` writes the registers from its operand, whatever was loaded before (R102). -/
theorem ldkeyCommand_sameAnswer (kx : BitVec 2) (k : BitVec 10) :
    sameAnswer (ldkeyCommand kx k e₁) (ldkeyCommand kx k e₂) := by
  have ⟨hparams, hstrict, herr, _⟩ := h
  unfold ldkeyCommand
  rw [hparams, hstrict]
  split
  · exact raise_sameAnswer h _
  · split
    · exact raise_sameAnswer h _
    · exact ⟨⟨hparams, hstrict, herr, rfl, rfl⟩, rfl⟩

/-- `ENC` and `DEC` read the subkeys and not `KEY` (R31, R120, R121). -/
theorem blockCommand_sameAnswer {f : ParamSet → CipherInstance → BitVec 8 → BitVec 8}
    (hf : ∀ P c₁ c₂ b, c₁.k1 = c₂.k1 → c₁.k2 = c₂.k2 → f P c₁ b = f P c₂ b) (bx : BitVec 4) (b : BitVec 8) :
    sameAnswer (blockCommand f bx b e₁) (blockCommand f bx b e₂) := by
  unfold blockCommand
  split
  · exact raise_sameAnswer h _
  · obtain ⟨h₁, h₂⟩ | ⟨c₁, c₂, h₁, h₂, hk1, hk2⟩ := sameButKey_cipher h <;> rw [h₁, h₂]
    · exact raise_sameAnswer h _
    · refine ⟨h, ?_⟩
      simp only [h.1, hf _ c₁ c₂ _ hk1 hk2]

/-- No command observes `KEY` (R24, R31). -/
theorem commandOf_sameAnswer (i : Instr) : sameAnswer (commandOf i e₁) (commandOf i e₂) := by
  cases i with
  | ldkey kx k => exact ldkeyCommand_sameAnswer h kx k
  | enc bx b =>
    exact blockCommand_sameAnswer h (fun _ _ _ _ hk1 hk2 => by rw [encryptBlock, encryptBlock, hk1, hk2]) bx b
  | dec bx b =>
    exact blockCommand_sameAnswer h (fun _ _ _ _ hk1 hk2 => by rw [decryptBlock, decryptBlock, hk1, hk2]) bx b
  | stat arg =>
    simp only [commandOf, statCommand]
    split
    · exact raise_sameAnswer h _
    · exact ⟨h, congrArg (respond 0) (sameButKey_statusByte h)⟩
  | clr arg =>
    simp only [commandOf, clrCommand]
    split
    · exact raise_sameAnswer h _
    · obtain ⟨hparams, hstrict, herr, -⟩ := h
      exact ⟨⟨hparams, hstrict, herr, rfl, rfl⟩, rfl⟩
  | illegal0 _ | illegal67 _ | illegal8F _ | enctext _ | dectext _ => exact raise_sameAnswer h _

theorem issueCommand_sameAnswer (dir : Direction) (c : Nat) :
    sameAnswer (issueCommand dir c e₁) (issueCommand dir c e₂) :=
  issueCommand_eq dir c ▸ commandOf_sameAnswer h _

theorem resetEvent_sameButKey : e₁.resetEvent.sameButKey e₂.resetEvent := by
  obtain ⟨hparams, hstrict, -⟩ := h
  exact ⟨hparams, hstrict, rfl, rfl, rfl⟩

end Engine

/-- A command that answers alike is a transaction that the host cannot tell apart. -/
theorem transact_sameButKey {s₁ s₂ : State} (h : s₁.sameButKey s₂) {cmd : Engine → Engine × Word}
    (hcmd : sameAnswer (cmd s₁.engine) (cmd s₂.engine)) : (s₁.transact cmd).sameButKey (s₂.transact cmd) := by
  obtain ⟨-, hpending, hresponses, htexts⟩ := h
  obtain ⟨hengine, hresponse⟩ := hcmd
  exact ⟨hengine, hpending, by rw [transact_responses, transact_responses, hresponses, hresponse], htexts⟩

theorem addText_sameButKey {s₁ s₂ : State} (h : s₁.sameButKey s₂) (c : TextCall) :
    (s₁.addText c).sameButKey (s₂.addText c) := by
  obtain ⟨hengine, hpending, hresponses, htexts⟩ := h
  exact ⟨hengine, hpending, hresponses, by rw [addText_texts, addText_texts, htexts]⟩

/-- The loop of a text procedure reads responses only: both machines go through the same characters and end with the
same record (R137). -/
theorem textLoop_sameButKey (dir : Direction) (text : List Nat) (out : List Byte) {s₁ s₂ : State}
    (h : s₁.sameButKey s₂) : (textLoop dir text out s₁).1.sameButKey (textLoop dir text out s₂).1 ∧
      (textLoop dir text out s₁).2 = (textLoop dir text out s₂).2 := by
  induction text generalizing out s₁ s₂ with
  | nil => exact ⟨h, rfl⟩
  | cons c cs ih =>
    have hissue := issueCommand_sameAnswer h.1 dir c
    have hresponse : issueResponse dir c s₁ = issueResponse dir c s₂ := hissue.2
    have hnext := transact_sameButKey h hissue
    rw [textLoop, textLoop, hresponse]
    split
    · exact ⟨hnext, rfl⟩
    · exact ih _ hnext

theorem runText_sameButKey (dir : Direction) (text : List Nat) {s₁ s₂ : State} (h : s₁.sameButKey s₂) :
    (runText dir text s₁).sameButKey (runText dir text s₂) := by
  unfold runText
  split
  · exact addText_sameButKey h _
  · obtain ⟨hloop, hcall⟩ := textLoop_sameButKey dir text [] h
    rw [hcall]
    exact addText_sameButKey hloop _

/-- Resuming a call issues the same character's command on both machines, and the call goes on alike (R143). -/
theorem resumeText_sameButKey (j : Nat) {s₁ s₂ : State} (h : s₁.sameButKey s₂) :
    (resumeText j s₁).sameButKey (resumeText j s₂) := by
  have ⟨_, _, _, htexts⟩ := h
  unfold resumeText
  rw [htexts]
  split
  · exact h
  · next call _ =>
    split
    · next c cs _ _ =>
      have hissue := issueCommand_sameAnswer h.1 call.dir c
      have hresponse : issueResponse call.dir c s₁ = issueResponse call.dir c s₂ := hissue.2
      obtain ⟨hengine, hpending, hresponses, -⟩ := transact_sameButKey h hissue
      exact ⟨hengine, hpending, hresponses, by rw [hresponse]⟩
    all_goals exact h

/-- No host action observes `KEY` (R24, R31). -/
theorem actResult_sameButKey (a : HostAct) {s₁ s₂ : State} (h : s₁.sameButKey s₂) :
    (actResult a s₁).sameButKey (actResult a s₂) := by
  cases a with
  | event e =>
    cases e with
    | command w => exact transact_sameButKey h (commandOf_sameAnswer h.1 (decode w))
    | reset => exact ⟨resetEvent_sameButKey h.1, h.2⟩
  | callText dir text => exact runText_sameButKey dir text h
  | beginText dir text => exact addText_sameButKey h _
  | resumeText j => exact resumeText_sameButKey j h

/-- Settles O50: both machines are idle, or both perform the same action. -/
theorem keyRegisterIsNeverObserved : Obligations.KeyRegisterIsNeverObserved := by
  intro s₁ s₂ t₁ t₂ h hstep₁ hstep₂
  have ⟨hengine, hpending, hresponses, htexts⟩ := h
  obtain ⟨hp₁, rfl⟩ | ⟨a, rest, hp₁, rfl⟩ := step_cases hstep₁ <;>
    obtain ⟨hp₂, rfl⟩ | ⟨b, rest', hp₂, rfl⟩ := step_cases hstep₂ <;> rw [hp₁, hp₂] at hpending
  · exact h
  · contradiction
  · contradiction
  · obtain ⟨rfl, rfl⟩ := List.cons.inj hpending
    exact actResult_sameButKey a ⟨hengine, rfl, hresponses, htexts⟩

end Sys2Proof.Machine
end

section
/-! The S-box ROM (R41, R42): its address as a number, and the word there as an entry of the selected box. -/

namespace Sys2Proof.Machine

/-- The ROM address is `b*16 + row*4 + col` (R41). -/
theorem romAddress_toNat (b : BitVec 1) (row col : BitVec 2) :
    (romAddress b row col).toNat = b.toNat * 16 + row.toNat * 4 + col.toNat := by
  rw [romAddress, append_toNat, append_toNat]
  omega

/-- A table of rows of one length, read in row order: the word at `i * n + j` is entry `j` of row `i`. -/
theorem getElem?_flatten_of_rows {α : Type} {n : Nat} {b : List (List α)} (hrows : ∀ r ∈ b, r.length = n) {j : Nat}
    (hj : j < n) (i : Nat) : b.flatten[i * n + j]? = b[i]?.bind (·[j]?) := by
  induction b generalizing i with
  | nil => rfl
  | cons r b ih =>
    have hr : r.length = n := hrows r (by simp)
    rw [List.flatten_cons]
    cases i with
    | zero => rw [List.getElem?_append_left (by omega)]; simp
    | succ i =>
      have hrest : (i + 1) * n + j - r.length = i * n + j := by
        rw [hr, Nat.succ_mul]
        omega
      rw [List.getElem?_append_right (by rw [hr, Nat.succ_mul]; omega), hrest, List.getElem?_cons_succ]
      exact ih (fun s hs => hrows s (by simp [hs])) i

/-- A box in range is 4 rows of 4 entries of 0 to 3 (R81, R90). -/
theorem boxInRange_iff {box : List (List Nat)} :
    boxInRange box = true ↔ box.length = 4 ∧ ∀ row ∈ box, row.length = 4 ∧ ∀ x ∈ row, x ≤ 3 := by
  simp [boxInRange]

/-- A box in range holds 16 words (R41). -/
theorem boxInRange_flatten_length {box : List (List Nat)} (h : boxInRange box = true) : box.flatten.length = 16 := by
  obtain ⟨hlen, hrows⟩ := boxInRange_iff.1 h
  rw [List.length_flatten, List.map_congr_left fun r hr => (hrows r hr).1]
  simp [hlen]

/-- A box in range holds, in each row and column, an entry of 0 to 3, and its words in row order hold that entry at
`row*4 + col` (R41, R90). -/
theorem boxInRange_entry {box : List (List Nat)} (h : boxInRange box = true) (row col : BitVec 2) :
    ∃ r x, box[row.toNat]? = some r ∧ r[col.toNat]? = some x ∧ x ≤ 3 ∧
      box.flatten[row.toNat * 4 + col.toNat]? = some x := by
  obtain ⟨hlen, hrows⟩ := boxInRange_iff.1 h
  have hrow : row.toNat < box.length := by omega
  obtain ⟨hwidth, hentries⟩ := hrows _ (List.getElem_mem hrow)
  have hcol : col.toNat < box[row.toNat].length := by omega
  refine ⟨_, _, List.getElem?_eq_getElem hrow, List.getElem?_eq_getElem hcol, hentries _ (List.getElem_mem hcol), ?_⟩
  rw [getElem?_flatten_of_rows (fun r hr => (hrows r hr).1) col.isLt, List.getElem?_eq_getElem hrow]
  exact List.getElem?_eq_getElem hcol

/-- A ROM read gives the word at the address, when that is a number of 0 to 3 (R42). -/
theorem romRead_toNat {P : ParamSet} {b : BitVec 1} {row col : BitVec 2} {x : Nat}
    (hword : (romWords P)[b.toNat * 16 + row.toNat * 4 + col.toNat]? = some x) (hx : x ≤ 3) :
    (romRead P b row col).toNat = x := by
  rw [romRead, romAddress_toNat, List.getD_eq_getElem?_getD, hword]
  exact val_vec (show x < 4 by omega)

/-- Settles O18: `BOX_1` fills the words 0 to 15 row by row, and `BOX_2` the words from 16 on. -/
theorem romReadGivesTheBoxEntry : Obligations.RomReadGivesTheBoxEntry := by
  intro p row col
  obtain ⟨hbox1, hbox2⟩ := p.boxes_in_range
  have hlen1 := boxInRange_flatten_length hbox1
  obtain ⟨r₁, x₁, hrow1, hcol1, hx1, hword1⟩ := boxInRange_entry hbox1 row col
  obtain ⟨r₂, x₂, hrow2, hcol2, hx2, hword2⟩ := boxInRange_entry hbox2 row col
  refine ⟨fun b => romAddress_toNat b row col, ⟨r₁, hrow1, ?_⟩, ⟨r₂, hrow2, ?_⟩⟩
  · rw [hcol1, romRead_toNat _ hx1]
    rw [romWords, List.getElem?_append_left (by rw [hlen1]; simp; omega)]
    simpa using hword1
  · rw [hcol2, romRead_toNat _ hx2]
    rw [romWords, List.getElem?_append_right (by rw [hlen1]; simp; omega), hlen1]
    simpa [Nat.add_assoc] using hword2

end Sys2Proof.Machine
end

section
/-! The core's run over the actions the host presents (R185), and the responses to a list of events (R50, R55). -/

namespace Sys2Proof.Machine

/-- An action does not read what is presented after it, and keeps it (R185). -/
theorem actResult_present (a : HostAct) (s : State) (acts : List HostAct) :
    actResult a (s.present acts) = (actResult a s).present acts := by
  obtain ⟨t, ht, -, hkeep⟩ := perform_ports a s
  have hpresent := hkeep acts
  rw [perform_eq_next] at ht hpresent
  rw [Host.Outcome.next.inj ht]
  exact Host.Outcome.next.inj hpresent

/-- A step takes the first of the actions presented and leaves the others (R184, R185). -/
theorem step_present_cons (a : HostAct) (acts : List HostAct) (s : State) :
    step (s.present (a :: acts)) = .next ((actResult a s).present acts) := by
  rw [step_of_pending rfl, perform_eq_next]
  exact congrArg _ (actResult_present a s acts)

/-- A core's run after a step that answers a next state. -/
theorem run_succ_of_step {M : Host.Core} {s t : M.State} (k : Nat) (h : M.step s = .next t) :
    M.run (k + 1) s = M.run k t := by
  rw [Host.Core.run, h]

/-- As many steps as there are actions presented take them all: the core's run is `runActs` (R185). -/
theorem core_run_present (acts : List HostAct) (s : State) :
    core.run acts.length (s.present acts) = .next ((runActs acts s).present []) := by
  induction acts generalizing s with
  | nil => rfl
  | cons a acts ih =>
    calc core.run (acts.length + 1) (s.present (a :: acts))
        = core.run acts.length ((actResult a s).present acts) :=
          run_succ_of_step (M := core) acts.length (step_present_cons a acts s)
      _ = .next ((runActs (a :: acts) s).present []) := by rw [ih, runActs_cons]

/-- A list of events is answered by one response per command word and none per reset (R50, R55). -/
theorem responses_length_runActs_events (events : List Event) (s : State) :
    (runActs (events.map .event) s).responses.length = s.responses.length + commandCount events := by
  induction events generalizing s with
  | nil => rfl
  | cons e events ih =>
    rw [List.map_cons, runActs_cons, ih]
    cases e with
    | command w => simp [actResult, commandCount]; omega
    | reset => rfl

/-- Settles O55: the core runs through the events as `runActs` does, and that answers each command once. -/
theorem runsAnswerEveryCommand : Obligations.RunsAnswerEveryCommand := by
  intro events s
  refine ⟨(runActs (events.map .event) s).present [], ?_, rfl, responses_length_runActs_events events s⟩
  simpa using core_run_present (events.map .event) s

end Sys2Proof.Machine
end

section
/-! The decoder, one equation for each row of the opcode table (R61, R62), and the fields of an encoded word (R56):
decoding and encoding undo one another. -/

namespace Sys2Proof

section Rows
variable {w : Word}

/-- Row `ILLEGAL.0`: `OP` is 0 (R62). -/
theorem decode_of_op_0 (h : w.toNat / 4096 = 0) : decode w = .illegal0 (argField w) := by
  simp only [decode, opField_toNat, h]

/-- Row `LDKEY`: `OP` is 1 (R61). -/
theorem decode_of_op_1 (h : w.toNat / 4096 = 1) : decode w = .ldkey (kxField w) (kField w) := by
  simp only [decode, opField_toNat, h]

/-- Row `ENC`: `OP` is 2 (R61). -/
theorem decode_of_op_2 (h : w.toNat / 4096 = 2) : decode w = .enc (bxField w) (bField w) := by
  simp only [decode, opField_toNat, h]

/-- Row `DEC`: `OP` is 3 (R61). -/
theorem decode_of_op_3 (h : w.toNat / 4096 = 3) : decode w = .dec (bxField w) (bField w) := by
  simp only [decode, opField_toNat, h]

/-- Row `STAT`: `OP` is 4 (R61). -/
theorem decode_of_op_4 (h : w.toNat / 4096 = 4) : decode w = .stat (argField w) := by
  simp only [decode, opField_toNat, h]

/-- Row `CLR`: `OP` is 5 (R61). -/
theorem decode_of_op_5 (h : w.toNat / 4096 = 5) : decode w = .clr (argField w) := by
  simp only [decode, opField_toNat, h]

/-- Row `ILLEGAL.6_7`: `OP` is 6 or 7 (R62). -/
theorem decode_of_op_6_7 (h : w.toNat / 4096 = 6 ∨ w.toNat / 4096 = 7) :
    decode w = .illegal67 (w.extractLsb' 0 13) := by
  obtain h | h := h <;> simp only [decode, opField_toNat, h]

/-- Row `ILLEGAL.8_F`: `OP` is 8 or more (R62). -/
theorem decode_of_op_8_F (h : 8 ≤ w.toNat / 4096) : decode w = .illegal8F (w.extractLsb' 0 15) := by
  rw [decode, opField_toNat]
  split
  case h_9 => rfl
  all_goals omega

end Rows

/-- Which row a word decodes to, by its opcode: there is no other (R61, R64). -/
theorem decode_cases (w : Word) :
    (w.toNat / 4096 = 0 ∧ decode w = .illegal0 (argField w)) ∨
    (w.toNat / 4096 = 1 ∧ decode w = .ldkey (kxField w) (kField w)) ∨
    (w.toNat / 4096 = 2 ∧ decode w = .enc (bxField w) (bField w)) ∨
    (w.toNat / 4096 = 3 ∧ decode w = .dec (bxField w) (bField w)) ∨
    (w.toNat / 4096 = 4 ∧ decode w = .stat (argField w)) ∨
    (w.toNat / 4096 = 5 ∧ decode w = .clr (argField w)) ∨
    ((w.toNat / 4096 = 6 ∨ w.toNat / 4096 = 7) ∧ decode w = .illegal67 (w.extractLsb' 0 13)) ∨
    (8 ≤ w.toNat / 4096 ∧ decode w = .illegal8F (w.extractLsb' 0 15)) := by
  have hop : w.toNat / 4096 = 0 ∨ w.toNat / 4096 = 1 ∨ w.toNat / 4096 = 2 ∨ w.toNat / 4096 = 3 ∨
      w.toNat / 4096 = 4 ∨ w.toNat / 4096 = 5 ∨ (w.toNat / 4096 = 6 ∨ w.toNat / 4096 = 7) ∨ 8 ≤ w.toNat / 4096 := by
    omega
  exact hop.imp (fun h => ⟨h, decode_of_op_0 h⟩) <| .imp (fun h => ⟨h, decode_of_op_1 h⟩) <|
    .imp (fun h => ⟨h, decode_of_op_2 h⟩) <| .imp (fun h => ⟨h, decode_of_op_3 h⟩) <|
    .imp (fun h => ⟨h, decode_of_op_4 h⟩) <| .imp (fun h => ⟨h, decode_of_op_5 h⟩) <|
    .imp (fun h => ⟨h, decode_of_op_6_7 h⟩) (fun h => ⟨h, decode_of_op_8_F h⟩)

/-- A field is the vector of its number. -/
theorem eq_ofNat_of_toNat {n x : Nat} {v : BitVec n} (h : v.toNat = x) : v = BitVec.ofNat n x := by
  rw [← h, BitVec.ofNat_toNat, BitVec.setWidth_eq]

/-- Settles O4: the equation of the row `OP` selects, each field being the vector of its number. -/
theorem decoderReadsOpAndTheOperandFields : Obligations.DecoderReadsOpAndTheOperandFields := by
  intro w
  rw [← eq_ofNat_of_toNat (argField_toNat w), ← eq_ofNat_of_toNat (kxField_toNat w),
    ← eq_ofNat_of_toNat (kField_toNat w), ← eq_ofNat_of_toNat (bxField_toNat w),
    ← eq_ofNat_of_toNat (bField_toNat w)]
  have hlow13 : w.extractLsb' 0 13 = BitVec.ofNat 13 (w.toNat % 8192) := eq_ofNat_of_toNat (by simp)
  have hlow15 : w.extractLsb' 0 15 = BitVec.ofNat 15 (w.toNat % 32768) := eq_ofNat_of_toNat (by simp)
  rw [← hlow13, ← hlow15]
  exact ⟨decode_of_op_0, decode_of_op_1, decode_of_op_2, decode_of_op_3, decode_of_op_4, decode_of_op_5,
    decode_of_op_6_7, decode_of_op_8_F⟩

/-- Settles O3: the number of the encoded word is put together again from the fields the decoder took out. -/
theorem encodeOfDecodeIsTheWord : Obligations.EncodeOfDecodeIsTheWord := by
  intro w
  apply Option.map_injective (f := BitVec.toNat) fun _ _ => BitVec.eq_of_toNat_eq
  have hw := w.isLt
  rw [encodeWord_toNat, Option.map_some]
  obtain ⟨hop, h⟩ | ⟨hop, h⟩ | ⟨hop, h⟩ | ⟨hop, h⟩ | ⟨hop, h⟩ | ⟨hop, h⟩ | ⟨hop, h⟩ | ⟨hop, h⟩ := decode_cases w <;>
    simp only [h, argField_toNat, kxField_toNat, kField_toNat, bxField_toNat, bField_toNat, BitVec.extractLsb'_toNat,
      Nat.shiftRight_zero, Nat.reducePow, Option.some.injEq] <;>
    omega

/-! Each field of a word made of its parts is the part (R56). -/

section Fields
variable (op bx : BitVec 4) (arg : BitVec 12) (kx : BitVec 2) (k : BitVec 10) (b : BitVec 8)

theorem argField_append : argField (op ++ arg) = arg := BitVec.extractLsb'_append_eq_right

theorem kxField_append : kxField (op ++ (kx ++ k)) = kx :=
  (BitVec.extractLsb'_append_eq_of_add_le (by decide)).trans BitVec.extractLsb'_append_eq_left

theorem kField_append : kField (op ++ (kx ++ k)) = k :=
  (BitVec.extractLsb'_append_eq_of_add_le (by decide)).trans BitVec.extractLsb'_append_eq_right

theorem bxField_append : bxField (op ++ (bx ++ b)) = bx :=
  (BitVec.extractLsb'_append_eq_of_add_le (by decide)).trans BitVec.extractLsb'_append_eq_left

theorem bField_append : bField (op ++ (bx ++ b)) = b :=
  (BitVec.extractLsb'_append_eq_of_add_le (by decide)).trans BitVec.extractLsb'_append_eq_right

end Fields

/-- Settles O2: the word's opcode selects the command's own row, and each field reads back its operand. -/
theorem decodeOfEncodeIsTheCommand : Obligations.DecodeOfEncodeIsTheCommand := by
  intro i w hw
  have hnum := encodeWord_toNat i
  rw [hw, Option.map_some] at hnum
  cases i with (simp only [reduceCtorEq, Option.some.injEq] at hnum <;> obtain rfl := Option.some.inj hw)
  | ldkey kx k => rw [decode_of_op_1 (by omega), kxField_append, kField_append]
  | enc bx b => rw [decode_of_op_2 (by omega), bxField_append, bField_append]
  | dec bx b => rw [decode_of_op_3 (by omega), bxField_append, bField_append]
  | stat arg => rw [decode_of_op_4 (by omega), argField_append]
  | clr arg => rw [decode_of_op_5 (by omega), argField_append]
  | illegal0 arg => rw [decode_of_op_0 (by omega), argField_append]
  | illegal67 low => rw [decode_of_op_6_7 (by omega), BitVec.extractLsb'_append_eq_right]
  | illegal8F low => rw [decode_of_op_8_F (by omega), BitVec.extractLsb'_append_eq_right]

/-- The word with a command's number decodes to that command. -/
theorem decode_of_toNat {i : Instr} {w : Word} (h : (encodeWord i).map BitVec.toNat = some w.toNat) : decode w = i := by
  obtain ⟨w', hw', hnum⟩ := Option.map_eq_some_iff.1 h
  obtain rfl := BitVec.eq_of_toNat_eq hnum
  exact decodeOfEncodeIsTheCommand i w' hw'

/-- Settles O1: each of the words is the one encoded from its instruction's fields. -/
theorem specWordsDecodeToTheirInstructions : Obligations.SpecWordsDecodeToTheirInstructions := by
  have dec {i : Instr} {w : Word} (h : encodeWord i = some w) : decode w = i := decodeOfEncodeIsTheCommand i w h
  exact ⟨dec rfl, dec rfl, dec rfl, dec rfl, dec rfl, dec rfl, dec rfl, dec rfl, dec rfl, dec rfl, dec rfl, dec rfl,
    dec rfl, dec rfl, dec rfl⟩

end Sys2Proof
end

section
/-! The rows of the opcode table as blocks of words (R61, R62, R63), and the legal words (R64). -/

namespace Sys2Proof

/-- A mask that keeps the bits from `k` up leaves the word's number rounded down to a multiple of `2^k`. -/
theorem toNat_and_allOnes_shiftLeft (w : Word) (k : Nat) :
    (w &&& BitVec.allOnes 16 <<< k).toNat = w.toNat / 2 ^ k * 2 ^ k := by
  rw [← BitVec.shiftLeft_ushiftRight, BitVec.toNat_shiftLeft, BitVec.toNat_ushiftRight, Nat.shiftLeft_eq,
    Nat.shiftRight_eq_div_pow, Nat.mod_eq_of_lt ((Nat.div_mul_le_self _ _).trans_lt w.isLt)]

/-- A row of the table matches the words from its pattern up, as many as its mask leaves open. -/
theorem matchesWord_iff_block {r : OpcodeRow} (hr : r ∈ opcodeRows) (w : Word) :
    r.matchesWord w = true ↔ r.pattern.toNat ≤ w.toNat ∧ w.toNat + r.mask.toNat < r.pattern.toNat + 0x10000 := by
  have hrows : ∀ r ∈ opcodeRows, ∃ k < 16, r.mask = BitVec.allOnes 16 <<< k ∧ r.mask.toNat + 2 ^ k = 0x10000 ∧
      2 ^ k ∣ r.pattern.toNat := by decide
  obtain ⟨k, -, hmask, hsize, c, hc⟩ := hrows r hr
  have hnum : (w &&& r.mask).toNat = w.toNat / 2 ^ k * 2 ^ k := hmask ▸ toNat_and_allOnes_shiftLeft w k
  have hpos := Nat.two_pow_pos k
  rw [OpcodeRow.matchesWord, beq_iff_eq, ← BitVec.toNat_inj, hnum, hc, Nat.mul_comm (2 ^ k) c,
    Nat.mul_left_inj hpos.ne', Nat.div_eq_iff hpos]
  omega

/-- Settles O5: a word decodes to a row's mnemonic exactly when it lies in the block of words the row matches. -/
theorem opcodeTableRowsAgreeWithTheDecoder : Obligations.OpcodeTableRowsAgreeWithTheDecoder := by
  constructor
  · intro r hr w
    rw [matchesWord_iff_block hr]
    revert r
    have hw := w.isLt
    obtain ⟨hop, h⟩ | ⟨hop, h⟩ | ⟨hop, h⟩ | ⟨hop, h⟩ | ⟨hop, h⟩ | ⟨hop, h⟩ | ⟨hop, h⟩ | ⟨hop, h⟩ := decode_cases w <;>
      simp [opcodeRows, h, Instr.mnemonic, ← BitVec.toNat_inj, argField_toNat] <;>
      omega
  · intro w
    simp only [← Bool.not_eq_true]
    have hw := w.isLt
    calc (∀ r ∈ opcodeRows, ¬ r.matchesWord w = true)
        ↔ ∀ r ∈ opcodeRows, ¬ (r.pattern.toNat ≤ w.toNat ∧ w.toNat + r.mask.toNat < r.pattern.toNat + 0x10000) :=
          forall₂_congr fun r hr => not_congr (matchesWord_iff_block hr w)
      _ ↔ _ := by
        simp [opcodeRows]
        omega

/-- Settles O6: each row's well-formedness is a bound on the word's operand. -/
theorem legalWordsAreTheFiveRanges : Obligations.LegalWordsAreTheFiveRanges := by
  intro w
  obtain ⟨hop, h⟩ | ⟨hop, h⟩ | ⟨hop, h⟩ | ⟨hop, h⟩ | ⟨hop, h⟩ | ⟨hop, h⟩ | ⟨hop, h⟩ | ⟨hop, h⟩ := decode_cases w <;>
    simp only [h, Instr.wellFormed, beq_iff_eq, ← BitVec.toNat_inj, argField_toNat, kxField_toNat, bxField_toNat,
      BitVec.toNat_ofNat, Nat.zero_mod, Bool.false_eq_true, false_iff] <;>
    omega

end Sys2Proof
end

section
/-! The expansion of the text procedures (R66, R137, R138, R141): one block command per character. -/

namespace Sys2Proof

/-- The test for a wide character (R141). -/
theorem hasWideChar_iff {text : List Nat} : hasWideChar text = true ↔ ∃ c ∈ text, 255 < c := by
  simp [hasWideChar]

/-- A text of single-byte characters expands character by character (R66). -/
theorem expandText_of_singleByte {text : List Nat} (h : ∀ c ∈ text, c ≤ 255) (op : BitVec 4) :
    expandText op text = text.map (fun c => op ++ (0#4 ++ BitVec.ofNat 8 c)) := by
  refine if_neg fun hwide => ?_
  obtain ⟨c, hc, hgt⟩ := hasWideChar_iff.1 hwide
  exact absurd (h c hc) (by omega)

/-- A text with a wide character expands to nothing (R141). -/
theorem expandText_of_wide {text : List Nat} (h : ∃ c ∈ text, 255 < c) (op : BitVec 4) : expandText op text = [] :=
  if_pos (hasWideChar_iff.2 h)

/-- The numbers of the words a single-byte text expands to: the opcode's 4096 and the character. -/
theorem expandText_toNat {text : List Nat} (h : ∀ c ∈ text, c ≤ 255) (op : BitVec 4) :
    (expandText op text).map BitVec.toNat = text.map (fun c => op.toNat * 4096 + c) := by
  rw [expandText_of_singleByte h, List.map_map]
  refine List.map_congr_left fun c hc => ?_
  have hc := h c hc
  rw [Function.comp_apply, opBlock_toNat, BitVec.toNat_ofNat, BitVec.toNat_ofNat]
  omega

/-- The words of a single-byte text decode to the commands whose words they are. -/
theorem expandText_decode {text : List Nat} (h : ∀ c ∈ text, c ≤ 255) {op : BitVec 4} {cmd : BitVec 8 → Instr}
    (hcmd : ∀ b, encodeWord (cmd b) = some (op ++ (0#4 ++ b))) :
    (expandText op text).map decode = text.map (fun c => cmd (BitVec.ofNat 8 c)) := by
  rw [expandText_of_singleByte h, List.map_map]
  exact List.map_congr_left fun c _ => decodeOfEncodeIsTheCommand _ _ (hcmd _)

/-- Settles O7: `ENCTEXT` is the expansion at opcode 2 and `DECTEXT` the one at opcode 3. -/
theorem textExpandsToOneBlockCommandPerCharacter : Obligations.TextExpandsToOneBlockCommandPerCharacter :=
  fun _ => ⟨fun h => ⟨expandText_toNat h 2, expandText_toNat h 3, expandText_decode h (cmd := .enc 0) fun _ => rfl,
    expandText_decode h (cmd := .dec 0) fun _ => rfl⟩, fun h => ⟨expandText_of_wide h 2, expandText_of_wide h 3⟩⟩

end Sys2Proof
end

section
/-! The assembler's operands (R65): a number, and a bit list with index 0 first (R59, R60). -/

namespace Sys2Proof.Machine

/-- The word `OP * 4096 + number` has that number (R65). -/
theorem operandWord_toNat {op n : Nat} (hop : op < 16) (hn : n ≤ 4095) :
    (BitVec.ofNat 16 (op * 4096 + n)).toNat = op * 4096 + n := by
  rw [BitVec.toNat_ofNat]
  omega

/-- A number that fits `ARG` assembles to the opcode's 4096 and the number (R65). -/
theorem assembleWord_number (op len : Nat) {n : Nat} (hn : n ≤ 4095) :
    assembleWord op len (.number n) = .ok [BitVec.ofNat 16 (op * 4096 + n)] := by
  rw [assembleWord, operandNumber, if_pos hn]
  rfl

/-- A bit list of the operand's length assembles as its value does (R65). -/
theorem assembleWord_bits (op : Nat) {len : Nat} {l : List Bool} (hl : l.length = len) :
    assembleWord op len (.bits l) = .ok [BitVec.ofNat 16 (op * 4096 + bitListVal l)] := by
  rw [assembleWord, operandNumber, if_pos hl]
  rfl

/-- A bit list of another length is an error (R65). -/
theorem assembleWord_bits_error (op : Nat) {len : Nat} {l : List Bool} (hl : l.length ≠ len) :
    assembleWord op len (.bits l) = .error .wrongListLength := by
  rw [assembleWord, operandNumber, if_neg hl]
  rfl

/-- `LDKEY` with a number operand: the extension bits take the high part (R56, R65). -/
theorem decode_ldkey_number {n : Nat} (hn : n ≤ 4095) :
    decode (BitVec.ofNat 16 (1 * 4096 + n)) = .ldkey (BitVec.ofNat 2 (n / 1024)) (BitVec.ofNat 10 n) := by
  apply decode_of_toNat
  simp only [encodeWord_toNat, BitVec.toNat_ofNat, Option.some.injEq]
  omega

/-- `ENC` with a number operand, likewise. -/
theorem decode_enc_number {n : Nat} (hn : n ≤ 4095) :
    decode (BitVec.ofNat 16 (2 * 4096 + n)) = .enc (BitVec.ofNat 4 (n / 256)) (BitVec.ofNat 8 n) := by
  apply decode_of_toNat
  simp only [encodeWord_toNat, BitVec.toNat_ofNat, Option.some.injEq]
  omega

/-- `DEC` with a number operand, likewise. -/
theorem decode_dec_number {n : Nat} (hn : n ≤ 4095) :
    decode (BitVec.ofNat 16 (3 * 4096 + n)) = .dec (BitVec.ofNat 4 (n / 256)) (BitVec.ofNat 8 n) := by
  apply decode_of_toNat
  simp only [encodeWord_toNat, BitVec.toNat_ofNat, Option.some.injEq]
  omega

/-- Settles O8: the assembled word is `OP * 4096 + number`, and its fields are the number's parts. -/
theorem assembledNumbersDecodeToTheirOperand : Obligations.AssembledNumbersDecodeToTheirOperand := fun _ hn =>
  ⟨⟨_, assembleWord_number 1 10 hn, operandWord_toNat (by decide) hn, decode_ldkey_number hn⟩,
    ⟨_, assembleWord_number 2 8 hn, operandWord_toNat (by decide) hn, decode_enc_number hn⟩,
    ⟨_, assembleWord_number 3 8 hn, operandWord_toNat (by decide) hn, decode_dec_number hn⟩⟩

/-- The value of a written bit list is the number of the vector with those bits, the first one leftmost (R11). -/
theorem bitListVal_eq (l : List Bool) : bitListVal l = (BitVec.ofBoolListBE l).toNat := by
  suffices h : ∀ a, l.foldl (fun a b => 2 * a + b.toNat) a = a * 2 ^ l.length + (BitVec.ofBoolListBE l).toNat by
    simpa [bitListVal] using h 0
  induction l with
  | nil => simp [BitVec.ofBoolListBE]
  | cons b l ih =>
    intro a
    rw [List.foldl_cons, ih, BitVec.ofBoolListBE, BitVec.toNat_cons', Nat.shiftLeft_eq, List.length_cons]
    ring

/-- A list of `n` bits denotes a number of `n` bits. -/
theorem bitListVal_lt {n : Nat} {l : List Bool} (hl : l.length = n) : bitListVal l < 2 ^ n := by
  rw [bitListVal_eq, ← hl]
  exact BitVec.isLt _

/-- The vector of a written bit list has the list's bits in the list's order (R59, R60, R65). -/
theorem bit_bitListVal {n i : Nat} {l : List Bool} (hl : l.length = n) (hi : i < n) :
    some (bit (BitVec.ofNat n (bitListVal l)) i) = l[i]? := by
  subst hl
  rw [bitListVal_eq, BitVec.ofNat_toNat, BitVec.setWidth_eq, bit, BitVec.getMsbD_ofBoolListBE]
  simp [hi]

/-- Settles O9: the list's value fits the operand, so the extension bits are 0 and the operand is the list's vector. -/
theorem assembledBitListsAreTheOperandVector : Obligations.AssembledBitListsAreTheOperandVector := by
  refine ⟨fun l hl => ?_, fun l hl => ?_, fun l hl => assembleWord_bits_error 1 hl,
    fun l hl => ⟨assembleWord_bits_error 2 hl, assembleWord_bits_error 3 hl⟩⟩
  · have hlt : bitListVal l < 1024 := bitListVal_lt hl
    have hdec := decode_ldkey_number (n := bitListVal l) (by omega)
    rw [Nat.div_eq_of_lt hlt] at hdec
    exact ⟨_, _, assembleWord_bits 1 hl, hdec, fun i hi => by rw [keyOperand_eq, bit_bitListVal hl hi]⟩
  · have hlt : bitListVal l < 256 := bitListVal_lt hl
    have henc := decode_enc_number (n := bitListVal l) (by omega)
    have hdec := decode_dec_number (n := bitListVal l) (by omega)
    rw [Nat.div_eq_of_lt hlt] at henc hdec
    refine ⟨_, _, _, _, assembleWord_bits 2 hl, henc, assembleWord_bits 3 hl, hdec, fun i hi => ?_⟩
    rw [blockOperand_eq, bit_bitListVal hl hi]
    exact ⟨rfl, rfl⟩

end Sys2Proof.Machine
end

section
/-! What every command word does at the ports (R55, R57, R62), and what a step and each host action runs (R137, R138,
R170, R185). -/

namespace Sys2Proof.Machine

/-- Settles O41: a word is one transaction of a command, and a command's response is well formed. -/
theorem everyWordGetsOneResponse : Obligations.EveryWordGetsOneResponse := fun w s =>
  ⟨_, _, exec_commandWord (decode_isCommandWord w) s, rfl, commandOf_responseFormed (decode w) s.engine, rfl, rfl⟩

/-- Settles O34: the three illegal rows raise `IllegalCommand`, and such a word decodes to one of them. -/
theorem illegalOpcodesRaiseIllegalCommand : Obligations.IllegalOpcodesRaiseIllegalCommand := by
  intro s
  refine ⟨fun w hw => ?_, fun _ => rfl, fun _ => rfl, fun _ => rfl⟩
  obtain h0 | h6 := hw
  · rw [decode_of_op_0 h0]
    rfl
  · obtain h | h : (w.toNat / 4096 = 6 ∨ w.toNat / 4096 = 7) ∨ 8 ≤ w.toNat / 4096 := by omega
    · rw [decode_of_op_6_7 h]
      rfl
    · rw [decode_of_op_8_F h]
      rfl

/-- Settles O39: the parts of the concatenation, as numbers and as the response's fields. -/
theorem respondIsStatusTimes4096PlusData : Obligations.RespondIsStatusTimes4096PlusData := fun st data =>
  ⟨(opBlock_toNat st 0 data).trans (by simp), rspStatus_respond st data, rspZero_respond st data,
    rspData_respond st data⟩

/-- Bits that are one command word decode as the word placed at the port does (log entries 3 and 9). -/
theorem decodeTableWord_eq_some {nbits w : Nat} {i : Instr} (h : decodeTableWord nbits w = some i) :
    decode (BitVec.ofNat 16 (w % 2 ^ nbits)) = i := by
  unfold decodeTableWord decodeSized at h
  split at h
  · next j hj =>
    split at hj
    · cases hj
    · cases hj
      exact Option.some.inj h
  · cases h

/-- Settles O53: the step on the action at the port, the placed word being such an action, and the core's run. -/
theorem stepRunsTheDecodedInstruction : Obligations.StepRunsTheDecodedInstruction :=
  ⟨fun _ _ _ hnext => step_of_pending hnext, fun _ _ _ hnext => step_of_pending hnext,
    fun _ _ _ _ _ => ⟨rfl, perform_reset _, rfl, rfl, rfl, rfl⟩,
    fun s _ _ _ hword => decodeTableWord_eq_some hword ▸ step_of_pending (s := s.withFetchWord _ _) rfl,
    core_run_present⟩

end Sys2Proof.Machine
end

section
/-! Bijective tables and the predicates on parameter sets (R81): the generators' draws (R84, R85, R95) and the sets an
engine is built from (R86). -/

namespace Sys2Proof.Machine

/-- A rearrangement of the source positions 1 to `n` is a bijection (R81). -/
theorem isBijection_of_perm {n : Nat} {t : List Nat} (h : ((List.range n).map (· + 1)).Perm t) :
    isBijection n t = true := by
  have hlen : t.length = n := by simpa using h.length_eq.symm
  have hcount : ∀ j < n, t.count (j + 1) = 1 := fun j hj => by
    rw [← h.count_eq, List.count_eq_one_of_mem (positions_nodup n) (by simpa using hj)]
  simpa [isBijection, hlen] using hcount

/-- A table of length `n` that uses every source position is a bijection. -/
theorem isBijection_of_all_used {n : Nat} {t : List Nat} (hlen : t.length = n) (hused : ∀ j < n, j + 1 ∈ t) :
    isBijection n t = true :=
  isBijection_of_perm <| (List.subperm_of_subset (positions_nodup n) (by simpa [List.subset_def] using hused))
    |>.perm_of_length_le (by simp [hlen])

/-- A table of length `n` in range that repeats no entry is a bijection. -/
theorem isBijection_of_nodup {n : Nat} {t : List Nat} (hlen : t.length = n) (hrange : ∀ x ∈ t, 1 ≤ x ∧ x ≤ n)
    (hdistinct : t.Nodup) : isBijection n t = true := by
  have hsub : t ⊆ (List.range n).map (· + 1) := fun x hx => by
    obtain ⟨hpos, hle⟩ := hrange x hx
    exact List.mem_map.2 ⟨x - 1, List.mem_range.2 (by omega), by omega⟩
  exact isBijection_of_perm ((List.subperm_of_subset hdistinct hsub).perm_of_length_le (by simp [hlen])).symm

/-- What the legacy generator can produce (R84). -/
theorem genLegacy_iff {L : Nat} {t : List Nat} :
    genLegacy L t = true ↔ t.length = L ∧ ∀ x ∈ t, 1 ≤ x ∧ x ≤ L := by
  simp [genLegacy, entriesIn]

/-- Settles O17: a bijection is in range and repeats no entry, and `L` distinct entries of 1 to `L` use each of them. -/
theorem legacyTablesAreCertifiedWhenDistinct : Obligations.LegacyTablesAreCertifiedWhenDistinct := by
  intro L t
  rw [genLegacy_iff]
  constructor
  · intro h
    exact ⟨⟨(isBijection_spec h).1, fun x hx => (isBijection_mem h x).1 hx⟩, isBijection_nodup h⟩
  · rintro ⟨⟨hlen, hrange⟩, hdistinct⟩
    exact isBijection_of_nodup hlen hrange hdistinct

/-- "Bijection over {1..n}" with the positions counted from 1 (R81). -/
theorem isBijection_iff_count {n : Nat} {t : List Nat} :
    isBijection n t = true ↔ t.length = n ∧ ∀ j, 1 ≤ j → j ≤ n → t.count j = 1 := by
  simp only [isBijection, Bool.and_eq_true, decide_eq_true_eq, List.all_eq_true, List.mem_range]
  refine and_congr_right fun _ => ⟨fun h j hpos hle => ?_, fun h j hj => h (j + 1) (by omega) hj⟩
  simpa [Nat.sub_add_cancel hpos] using h (j - 1) (by omega)

/-- `RangeValid` demands in-range tables and boxes; `P8` alone has a range that is not its length (R81, R84). -/
theorem rangeValid_iff {P : ParamSet} : rangeValid P = true ↔
    genLegacy 10 P.p10 = true ∧ (P.p8.length = 8 ∧ ∀ x ∈ P.p8, 1 ≤ x ∧ x ≤ 10) ∧ genLegacy 4 P.p4 = true ∧
    genLegacy 8 P.ip = true ∧ boxInRange P.box1 = true ∧ boxInRange P.box2 = true := by
  simp [rangeValid, genLegacy, entriesIn, and_assoc]

/-- `Usable` is `RangeValid` with a bijective `IP` (R81). -/
theorem usable_iff {P : ParamSet} : usable P = true ↔ rangeValid P = true ∧ isBijection 8 P.ip = true := by
  simp [usable]

/-- `ParamsValid` demands, beyond `Usable`, bijections `P10` and `P4` and distinct entries of `P8` (R81). -/
theorem paramsValid_iff {P : ParamSet} : paramsValid P = true ↔
    usable P = true ∧ isBijection 10 P.p10 = true ∧ isBijection 4 P.p4 = true ∧ P.p8.Nodup := by
  simp [paramsValid, and_assoc]

/-- A row is a permutation of {0,1,2,3} when its entries, counted from 1, are a bijection. -/
theorem rowPermutation_eq_isBijection (row : List Nat) : rowPermutation row = isBijection 4 (row.map (· + 1)) := by
  simp [rowPermutation, isBijection, List.count_map_of_injective _ (· + 1) (add_left_injective 1)]

/-- The boxes of the box generator are in range (R81, R95). -/
theorem boxInRange_of_genBox {box : List (List Nat)} (h : genBox box = true) : boxInRange box = true := by
  simp only [genBox, Bool.and_eq_true, decide_eq_true_eq, List.all_eq_true, rowPermutation_eq_isBijection] at h
  obtain ⟨hlen, hrows⟩ := h
  refine boxInRange_iff.2 ⟨hlen, fun row hrow => ?_⟩
  have hbij := hrows row hrow
  refine ⟨by simpa using (isBijection_spec hbij).1, fun x hx => ?_⟩
  obtain ⟨-, hle⟩ := (isBijection_mem hbij (x + 1)).1 (List.mem_map_of_mem hx)
  omega

/-- A certified draw satisfies `ParamsValid`: its `P8` is a bijection of 1 to 8, so it lies in 1 to 10 (R81, R85). -/
theorem paramsValid_of_certifiedDraw {P : ParamSet} (h : certifiedDraw P = true) : paramsValid P = true := by
  simp only [certifiedDraw, Bool.and_eq_true] at h
  obtain ⟨⟨⟨⟨⟨hp10, hp8⟩, hp4⟩, hip⟩, hbox1⟩, hbox2⟩ := h
  have hlegacy {L : Nat} {t : List Nat} (ht : genCertified L t = true) : genLegacy L t = true :=
    ((legacyTablesAreCertifiedWhenDistinct L t).1 ht).1
  have hp8range : ∀ x ∈ P.p8, 1 ≤ x ∧ x ≤ 10 := fun x hx => by
    have := (isBijection_mem hp8 x).1 hx
    omega
  have hvalid : rangeValid P = true := rangeValid_iff.2 ⟨hlegacy hp10, ⟨(isBijection_spec hp8).1, hp8range⟩,
    hlegacy hp4, hlegacy hip, boxInRange_of_genBox hbox1, boxInRange_of_genBox hbox2⟩
  exact paramsValid_iff.2 ⟨usable_iff.2 ⟨hvalid, hip⟩, hp10, hp4, isBijection_nodup hp8⟩

/-- Settles O16: each predicate's parts are those of R81, the lengths of the bijections being among the others. -/
theorem certifiedDrawsAreValid : Obligations.CertifiedDrawsAreValid := by
  refine ⟨fun P => ?_, fun P => ?_, fun P => paramsValid_of_certifiedDraw⟩
  · simp only [usable_iff, rangeValid_iff, genLegacy_iff, boxInRange_iff, isBijection_iff_count, List.forall_mem_cons]
    simp only [List.not_mem_nil]
    tauto
  · rw [paramsValid_iff]
    refine and_congr_right fun husable => ?_
    obtain ⟨⟨hp10, -⟩, -, ⟨hp4, -⟩, -⟩ := Params.tables_in_range ⟨P, husable⟩
    simp [isBijection_iff_count, hp10, hp4]

/-- Building an engine's parameter set keeps a usable set and refuses every other (R86). -/
theorem buildParams_eq_some_iff {P : ParamSet} {p : Params} :
    buildParams P = some p ↔ usable P = true ∧ p.set = P := by
  unfold buildParams
  split
  · next h =>
    constructor
    · rintro ⟨⟩
      exact ⟨h, rfl⟩
    · rintro ⟨-, rfl⟩
      rfl
  · next h => simp [h]

/-- Settles O15: a set is built exactly when it is `Usable`, which is R81's two demands. -/
theorem onlyUsableSetsBuildAnEngine : Obligations.OnlyUsableSetsBuildAnEngine := fun P =>
  ⟨fun h => ⟨⟨P, h⟩, buildParams_eq_some_iff.2 ⟨h, rfl⟩, rfl⟩,
    fun ⟨_, hbuilt⟩ => usable_iff.1 (buildParams_eq_some_iff.1 hbuilt).1⟩

end Sys2Proof.Machine
end

section
/-! The permutation unit: `PERM` (R76, R83), its matrix form (R77) and the circular shift `ROL` (R78). -/

namespace Sys2Proof.Machine

/-- An entry of a table in range is a source position. -/
theorem tableEntry_range {nin : Nat} {t : List Nat} (hrange : ∀ x ∈ t, 1 ≤ x ∧ x ≤ nin) {i : Nat} (hi : i < t.length) :
    1 ≤ tableEntry t i ∧ tableEntry t i ≤ nin := by
  rw [tableEntry_eq hi]
  exact hrange _ (List.getElem_mem hi)

/-- A source position stands in the table exactly when some entry is it. -/
theorem mem_iff_tableEntry {t : List Nat} {x : Nat} : x ∈ t ↔ ∃ i < t.length, tableEntry t i = x := by
  rw [List.mem_iff_getElem]
  exact exists_congr fun i => ⟨fun ⟨hi, h⟩ => ⟨hi, tableEntry_eq hi ▸ h⟩, fun ⟨hi, h⟩ => ⟨hi, tableEntry_eq hi ▸ h⟩⟩

/-- `PERM` of the all-one vector under a table in range (R76). -/
theorem perm_allOnes {nout nin : Nat} {t : List Nat} (hlen : t.length = nout) (hrange : ∀ x ∈ t, 1 ≤ x ∧ x ≤ nin) :
    perm nout t (BitVec.allOnes nin) = BitVec.allOnes nout := by
  refine bits_ext fun i hi => ?_
  obtain ⟨hpos, hle⟩ := tableEntry_range hrange (hlen ▸ hi)
  rw [bit_perm t _ hi, bit_allOnes, bit_allOnes, decide_eq_true hi, decide_eq_true (by omega)]

/-- Settles O10: the loop's bits, and a bit of a uniform vector is the same at each index. -/
theorem permMovesTheSourceBits : Obligations.PermMovesTheSourceBits := by
  intro nout nin t v hlen hrange
  refine ⟨fun i hi => ?_, bits_ext fun i hi => ?_, perm_allOnes hlen hrange⟩
  · rw [bit_perm t v (hlen ▸ hi), tableEntry_eq hi]
  · rw [bit_perm t _ hi, bit_zero, bit_zero]

/-- The 1s of the bit-reorder matrix (R77). -/
theorem permMatrix_iff {t : List Nat} {i j : Nat} : permMatrix t i j = true ↔ tableEntry t i = j + 1 :=
  decide_eq_true_iff

/-- Row `i` of the matrix picks the one source bit that `PERM` moves to index `i` (R77). -/
theorem permByMatrix_eq_perm {nout nin : Nat} {t : List Nat} (hlen : t.length = nout)
    (hrange : ∀ x ∈ t, 1 ≤ x ∧ x ≤ nin) (v : BitVec nin) : permByMatrix nout t v = perm nout t v := by
  refine bits_ext fun i hi => ?_
  obtain ⟨hpos, hle⟩ := tableEntry_range hrange (hlen ▸ hi)
  rw [bit_permByMatrix t v hi, bit_perm t v hi, Bool.eq_iff_iff]
  simp only [List.any_eq_true, List.mem_range, Bool.and_eq_true, permMatrix_iff]
  constructor
  · rintro ⟨j, -, hentry, hbit⟩
    rwa [hentry]
  · intro hbit
    exact ⟨tableEntry t i - 1, by omega, by omega, hbit⟩

/-- Two entry positions of a table without repetitions hold different entries. -/
theorem tableEntry_inj {t : List Nat} (hdistinct : t.Nodup) {i j : Nat} (hi : i < t.length) (hj : j < t.length)
    (h : tableEntry t i = tableEntry t j) : i = j := by
  rw [tableEntry_eq hi, tableEntry_eq hj] at h
  exact hdistinct.getElem_inj_iff.1 h

/-- Each source position stands in exactly one place of a bijection (R81). -/
theorem isBijection_position {n : Nat} {t : List Nat} (h : isBijection n t = true) {j : Nat} (hj : j < n) :
    ∃ i, i < t.length ∧ tableEntry t i = j + 1 :=
  mem_iff_tableEntry.1 ((isBijection_mem h (j + 1)).2 ⟨by omega, hj⟩)

/-- Settles O11: row `i` has its 1 in column `t[i] - 1`, and column `j` of a bijection where `j + 1` stands in the
table. -/
theorem permIsItsBitReorderMatrix : Obligations.PermIsItsBitReorderMatrix := by
  intro nout nin t hlen hrange
  simp only [permMatrix_iff]
  refine ⟨permByMatrix_eq_perm hlen hrange, fun i hi => ?_, fun hbij j hj => ?_⟩
  · obtain ⟨hpos, hle⟩ := tableEntry_range hrange (hlen ▸ hi)
    exact ⟨tableEntry t i - 1, ⟨by omega, by omega⟩, fun j' h => by omega⟩
  · obtain ⟨i, hi, hentry⟩ := isBijection_position hbij hj
    exact ⟨i, ⟨hlen ▸ hi, hentry⟩,
      fun i' hi' h => tableEntry_inj (isBijection_nodup hbij) (hlen ▸ hi') hi (h.trans hentry.symm)⟩

/-- `PERM` distributes over `xor` (R83 (b)). -/
theorem perm_xor (nout : Nat) {nin : Nat} (t : List Nat) (a b : BitVec nin) :
    perm nout t (a ^^^ b) = perm nout t a ^^^ perm nout t b :=
  bits_ext fun i hi => by simp only [bit_perm _ _ hi, bit_xor]

/-- `PERM` gives two vectors the same output exactly when they agree on every position the table names. -/
theorem perm_eq_perm_iff {nout nin : Nat} {t : List Nat} (hlen : t.length = nout) (hrange : ∀ x ∈ t, 1 ≤ x ∧ x ≤ nin)
    {a b : BitVec nin} : perm nout t a = perm nout t b ↔ ∀ j, j < nin → j + 1 ∈ t → bit a j = bit b j := by
  constructor
  · intro h j _ hmem
    obtain ⟨i, hi, hentry⟩ := mem_iff_tableEntry.1 hmem
    have hbits := congrArg (bit · i) h
    simpa [bit_perm _ _ (hlen ▸ hi), hentry] using hbits
  · intro h
    refine bits_ext fun i hi => ?_
    have hit : i < t.length := hlen ▸ hi
    obtain ⟨hpos, hle⟩ := tableEntry_range hrange hit
    rw [bit_perm t a hi, bit_perm t b hi]
    exact h _ (by omega) (mem_iff_tableEntry.2 ⟨i, hit, by omega⟩)

/-- Under a bijection no input bit is lost, so `PERM` is injective, and a bijection since the vectors are finitely many
(R83 (c)). -/
theorem perm_bijective {n : Nat} {t : List Nat} (h : isBijection n t = true) :
    Function.Bijective (fun v : BitVec n => perm n t v) := by
  refine Function.Injective.bijective_of_finite fun a b hab => bits_ext fun j hj => ?_
  exact (perm_eq_perm_iff (isBijection_spec h).1 fun x => (isBijection_mem h x).1).1 hab j hj
    ((isBijection_mem h (j + 1)).2 ⟨by omega, hj⟩)

/-- The output bits are the source bits in the order of the table. -/
theorem map_bit_perm {nout nin : Nat} {t : List Nat} (hlen : t.length = nout) (v : BitVec nin) :
    (List.range nout).map (bit (perm nout t v)) = t.map (fun x => bit v (x - 1)) := by
  refine List.ext_getElem (by simp [hlen]) fun i hi ht => ?_
  have hit : i < t.length := by simpa using ht
  simp [bit_perm t v (hlen ▸ hit), tableEntry_eq hit]

/-- A bijection keeps the number of 1 bits: it rearranges the bits (R83 (e)). -/
theorem perm_weight {n : Nat} {t : List Nat} (h : isBijection n t = true) (v : BitVec n) :
    ((List.range n).filter (bit (perm n t v))).length = ((List.range n).filter (bit v)).length := by
  have hbits : ((List.range n).map (bit (perm n t v))).Perm ((List.range n).map (bit v)) := by
    rw [map_bit_perm (isBijection_spec h).1]
    simpa [Function.comp_def] using ((isBijection_perm h).map fun x => bit v (x - 1)).symm
  simpa [List.filter_map] using (hbits.filter id).length_eq

/-- A square table that is no bijection drops some source position, and `PERM` does not see that bit (R83 (d)). -/
theorem perm_not_injective {n : Nat} {t : List Nat} (hlen : t.length = n) (hrange : ∀ x ∈ t, 1 ≤ x ∧ x ≤ n)
    (h : isBijection n t = false) : ¬ Function.Injective (fun v : BitVec n => perm n t v) := by
  obtain ⟨j, hj, hdropped⟩ : ∃ j < n, j + 1 ∉ t := by
    by_contra! hused
    simp [isBijection_of_all_used hlen hused] at h
  intro hinj
  have hsame : ofBits n (· == j) = 0 := hinj <| (perm_eq_perm_iff hlen hrange).2 fun i hi hmem => by
    have hne : i ≠ j := by
      rintro rfl
      exact hdropped hmem
    rw [bit_ofBits _ hi, bit_zero, beq_eq_false_iff_ne.2 hne]
  have hbit := bit_ofBits (· == j) hj
  rw [hsame, bit_zero, beq_self_eq_true] at hbit
  contradiction

/-- Settles O12: the laws (b) to (e) of R83, one lemma each. -/
theorem permLaws : Obligations.PermLaws :=
  ⟨fun nout _ t a b => perm_xor nout t a b, fun _ _ h => ⟨perm_bijective h, perm_weight h⟩,
    fun _ _ hlen hrange h => ⟨perm_not_injective hlen hrange h, fun _ _ => (perm_eq_perm_iff hlen hrange).2⟩⟩

/-- Circular shifts compose by adding their counts (R78). -/
theorem rol_rol {m : Nat} (v : BitVec m) (a b : Nat) : rol (rol v a) b = rol v (a + b) := by
  refine bits_ext fun i hi => ?_
  have hpos : (i + b) % m < m := Nat.mod_lt _ (by omega)
  rw [bit_rol _ _ hi, bit_rol _ _ hpos, bit_rol _ _ hi, Nat.mod_add_mod]
  congr 2
  omega

/-- Settles O13: each law holds at every index of the loop of R78. -/
theorem rolLaws : Obligations.RolLaws := by
  intro m v _
  refine ⟨fun n i => bit_rol v n, bits_ext fun i hi => ?_, bits_ext fun i hi => ?_, rol_rol v, fun n =>
    ⟨bits_ext fun i hi => ?_, bits_ext fun i hi => ?_⟩⟩
  · rw [bit_rol v 0 hi, Nat.add_zero, Nat.mod_eq_of_lt hi]
  · rw [bit_rol v m hi, Nat.add_mod_right, Nat.mod_eq_of_lt hi]
  · rw [bit_rol _ n hi, bit_zero, bit_zero]
  · rw [bit_rol _ n hi, bit_allOnes, bit_allOnes, decide_eq_true hi, decide_eq_true (Nat.mod_lt _ (by omega))]

end Sys2Proof.Machine
end

section
/-! `IPINV` (R82): what its loop writes, and that `PERM` with it undoes `PERM` with `IP`. -/

namespace Sys2Proof.Machine

/-- The first `k` passes of the loop of R82. -/
def ipInvLoop (ip : List Nat) (k : Nat) : List Nat :=
  (List.range k).foldl (fun inv i => inv.set (ip.getD i 0 - 1) (i + 1)) (List.replicate 8 0)

theorem ipInv_eq_ipInvLoop (ip : List Nat) : ipInv ip = ipInvLoop ip 8 := rfl

/-- Pass `k` writes `IPINV[IP[k] - 1] <- k + 1`. -/
theorem ipInvLoop_succ (ip : List Nat) (k : Nat) :
    ipInvLoop ip (k + 1) = (ipInvLoop ip k).set (tableEntry ip k - 1) (k + 1) := by
  simp [ipInvLoop, List.range_succ, tableEntry]

theorem ipInvLoop_length (ip : List Nat) (k : Nat) : (ipInvLoop ip k).length = 8 := by
  induction k with
  | zero => rfl
  | succ k ih => rw [ipInvLoop_succ, List.length_set, ih]

/-- The loop's invariant: what a pass wrote stands, since no later pass writes to the same place. -/
theorem ipInvLoop_getElem? {ip : List Nat} (h : isBijection 8 ip = true) {k : Nat} (hk : k ≤ 8) {i : Nat} (hi : i < k) :
    (ipInvLoop ip k)[tableEntry ip i - 1]? = some (i + 1) := by
  have hlen := (isBijection_spec h).1
  have hentry {j : Nat} (hj : j < 8) : 1 ≤ tableEntry ip j ∧ tableEntry ip j ≤ 8 :=
    tableEntry_range (fun x => (isBijection_mem h x).1) (by omega)
  induction k with
  | zero => omega
  | succ k ih =>
    obtain ⟨hpos, hle⟩ := hentry (j := k) (by omega)
    rw [ipInvLoop_succ]
    obtain rfl | hlt : i = k ∨ i < k := by omega
    · exact List.getElem?_set_self (by rw [ipInvLoop_length]; omega)
    · have hne : tableEntry ip i ≠ tableEntry ip k := fun heq =>
        absurd (tableEntry_inj (isBijection_nodup h) (by omega) (by omega) heq) (by omega)
      obtain ⟨hpos', -⟩ := hentry (j := i) (by omega)
      rw [List.getElem?_set_ne (by omega)]
      exact ih (by omega) hlt

/-- `IPINV[IP[i] - 1] = i + 1` (R82). -/
theorem ipInv_getElem? {ip : List Nat} (h : isBijection 8 ip = true) {i : Nat} (hi : i < 8) :
    (ipInv ip)[tableEntry ip i - 1]? = some (i + 1) :=
  ipInv_eq_ipInvLoop ip ▸ ipInvLoop_getElem? h (Nat.le_refl 8) hi

/-- `IPINV[IP[i] - 1] = i + 1` as a read of the table (R43, R82). -/
theorem tableEntry_ipInv {ip : List Nat} (h : isBijection 8 ip = true) {i : Nat} (hi : i < 8) :
    tableEntry (ipInv ip) (tableEntry ip i - 1) = i + 1 := by
  rw [tableEntry, List.getD_eq_getElem?_getD, ipInv_getElem? h hi, Option.getD_some]

/-- Two tables undo each other on every vector when following one and then the other leads back to each index. -/
theorem perm_perm_cancel {n : Nat} {t u : List Nat}
    (h : ∀ j, j < n → tableEntry t j - 1 < n ∧ tableEntry u (tableEntry t j - 1) = j + 1) (v : BitVec n) :
    perm n t (perm n u v) = v := by
  refine bits_ext fun j hj => ?_
  obtain ⟨hlt, hback⟩ := h j hj
  rw [bit_perm _ _ hj, bit_perm _ _ hlt, hback, Nat.add_sub_cancel]

/-- Settles O14: index `i` leads through `IP` and `IPINV` back to itself, and so does index `IP[i] - 1` through `IPINV`
and `IP`. -/
theorem ipInvUndoesIp : Obligations.IpInvUndoesIp := by
  intro p
  have hbij := p.ip_bijection
  have hlen := (isBijection_spec hbij).1
  refine ⟨fun i hi => ?_, fun v => ⟨perm_perm_cancel (fun j hj => ?_) v, perm_perm_cancel (fun i hi => ?_) v⟩⟩
  · rw [← tableEntry_eq hi]
    exact ipInv_getElem? hbij (hlen ▸ hi)
  · obtain ⟨i, hi, hentry⟩ := isBijection_position hbij hj
    have hinv := tableEntry_ipInv hbij (hlen ▸ hi)
    rw [hentry, Nat.add_sub_cancel] at hinv
    rw [hinv, Nat.add_sub_cancel]
    exact ⟨hlen ▸ hi, hentry⟩
  · obtain ⟨hpos, hle⟩ := tableEntry_range (fun x => (isBijection_mem hbij x).1) (hlen ▸ hi)
    exact ⟨by omega, tableEntry_ipInv hbij hi⟩

end Sys2Proof.Machine
end

section
/-! The key schedule as two selections from the permuted key's rotated halves (R100), and the key bit behind each
subkey bit. -/

namespace Sys2Proof.Machine

/-- The two 5-bit halves of a 10-bit vector, each rotated left by `n` (R100). -/
def rotatedHalves (w : BitVec 10) (n : Nat) : BitVec 10 := rol (slice w 0 5) n ++ rol (slice w 5 5) n

/-- Where the bit at index `j` of the rotated halves stood before the rotation: in its own half, `n` further on. -/
def rotationSource (n j : Nat) : Nat := if j < 5 then (j + n) % 5 else 5 + (j - 5 + n) % 5

/-- The first subkey is selected from the halves rotated by 1, the second, whose shifts add up, by 3 (R100, R101). -/
theorem keySched_eq (P : ParamSet) (k : BitVec 10) :
    keySched P k = (perm 8 P.p8 (rotatedHalves (perm 10 P.p10 k) 1),
      perm 8 P.p8 (rotatedHalves (perm 10 P.p10 k) 3)) := by
  simp only [keySched, rol_rol, rotatedHalves]

/-- The bits of the rotated halves. -/
theorem bit_rotatedHalves (w : BitVec 10) (n : Nat) {j : Nat} (hj : j < 10) :
    bit (rotatedHalves w n) j = bit w (rotationSource n j) := by
  rw [rotatedHalves, rotationSource, bit_append]
  split
  · next h => rw [bit_rol _ _ h, bit_slice _ _ (Nat.mod_lt _ (by omega)), Nat.zero_add]
  · next h => rw [bit_rol _ _ (by omega), bit_slice _ _ (Nat.mod_lt _ (by omega))]

theorem rotationSource_lt (n j : Nat) : rotationSource n j < 10 := by
  unfold rotationSource
  split <;> omega

/-- Back from a bit that `P8` selects, through the rotation, to the key bit that `P10` names (R76, R78, R100). -/
theorem selectedBit_eq_keyBit (p : Params) (k : BitVec 10) (n : Nat) {i q : Nat} (hq : p.set.p8[i]? = some q) :
    ∃ x, p.set.p10[rotationSource n (q - 1)]? = some x ∧
      bit (perm 8 p.set.p8 (rotatedHalves (perm 10 p.set.p10 k) n)) i = bit k (x - 1) := by
  obtain ⟨⟨hp10, -⟩, ⟨hp8, hrange⟩, -⟩ := p.tables_in_range
  obtain ⟨hi, rfl⟩ := List.getElem?_eq_some_iff.1 hq
  have hsource := rotationSource_lt n (p.set.p8[i] - 1)
  obtain ⟨hpos, hle⟩ := hrange _ (List.getElem_mem hi)
  refine ⟨tableEntry p.set.p10 (rotationSource n (p.set.p8[i] - 1)), ?_, ?_⟩
  · rw [tableEntry_eq (by omega), List.getElem?_eq_getElem (by omega)]
  · rw [bit_perm _ _ (hp8 ▸ hi), tableEntry_eq hi, bit_rotatedHalves _ _ (by omega), bit_perm _ _ hsource]

/-- The source of the position `q` that `P8` names, counted from 1. -/
theorem rotationSource_pred (n : Nat) {q : Nat} (hq : 1 ≤ q) :
    rotationSource n (q - 1) = if q ≤ 5 then (q - 1 + n) % 5 else 5 + (q - 6 + n) % 5 := by
  simp only [rotationSource, show q - 1 < 5 ↔ q ≤ 5 by omega, Nat.sub_sub]

/-- Settles O21: both subkeys are selections from rotated halves, by 1 and by 3. -/
theorem subkeyBitsAreKeyBits : Obligations.SubkeyBitsAreKeyBits := by
  intro p k i q hq
  obtain ⟨-, ⟨-, hrange⟩, -⟩ := p.tables_in_range
  obtain ⟨hpos, -⟩ := hrange q (List.mem_of_getElem? hq)
  rw [keySched_eq, ← rotationSource_pred 1 hpos, ← rotationSource_pred 3 hpos]
  exact ⟨selectedBit_eq_keyBit p k 1 hq, selectedBit_eq_keyBit p k 3 hq⟩

end Sys2Proof.Machine
end

section
/-! `SBOX` (R91) as an entry of the selected box, and the round value `F` nibble by nibble (R93, R110, R112). -/

namespace Sys2Proof.Machine

/-- The first bit of a 2-bit vector is its number divided by 2, the second the remainder (R11). -/
theorem bits_of_two_eq_div_mod (v : BitVec 2) : (bit v 0).toNat = v.toNat / 2 ∧ (bit v 1).toNat = v.toNat % 2 := by
  revert v
  decide

/-- Settles O19: a lookup is the ROM read at the row of the outer bits and the column of the inner bits (R42, R91), and
its output bits are those of the entry read. -/
theorem sboxReadsOuterRowAndInnerColumn : Obligations.SboxReadsOuterRowAndInnerColumn := by
  intro p h
  obtain ⟨-, ⟨r₁, hrow1, hcol1⟩, ⟨r₂, hrow2, hcol2⟩⟩ := romReadGivesTheBoxEntry p (sboxRow h) (sboxCol h)
  rw [sboxRow_toNat] at hrow1 hrow2
  rw [sboxCol_toNat] at hcol1 hcol2
  exact ⟨⟨r₁, _, hrow1, hcol1, bits_of_two_eq_div_mod _⟩, ⟨r₂, _, hrow2, hcol2, bits_of_two_eq_div_mod _⟩⟩

/-- A slice of an exclusive-or is the exclusive-or of the slices (R12, R111). -/
theorem slice_xor {n : Nat} (v w : BitVec n) (a len : Nat) :
    slice (v ^^^ w) a len = slice v a len ^^^ slice w a len :=
  bits_ext fun i hi => by rw [bit_slice _ _ hi, bit_xor, bit_xor, bit_slice _ _ hi, bit_slice _ _ hi]

/-- `EP` gives the half rotated right, then the half rotated left, each by one place (R110). -/
theorem perm_ep (r : BitVec 4) : perm 8 ep r = r.rotateRight 1 ++ r.rotateLeft 1 := by
  revert r
  decide

/-- Settles O24: the XOR result's left nibble is the rotated-right half's with the subkey's, and its right nibble the
rotated-left half's (R110), so each box gets its own nibble (R93). -/
theorem roundValueNibbleByNibble : Obligations.RoundValueNibbleByNibble := by
  intro p r k
  rw [roundValue, substitute, perm_ep, slice_xor, slice_xor, slice_append_left, slice_append_right]

end Sys2Proof.Machine
end

section
/-! `KEYSCHED` as its two selections (R100, R101), and on the uniform keys (R100). -/

namespace Sys2Proof.Machine

/-- Settles O20: the shifts by 1 and by 2 add up to 3, and the rotated halves are written out. -/
theorem secondSubkeyShiftsByThree : Obligations.SecondSubkeyShiftsByThree := fun P k =>
  Prod.ext_iff.1 (keySched_eq P k)

/-- `PERM` of the all-zero vector, whatever the table (R76). -/
theorem perm_zero (nout nin : Nat) (t : List Nat) : perm nout t (0 : BitVec nin) = 0 :=
  bits_ext fun i hi => by rw [bit_perm t _ hi, bit_zero, bit_zero]

/-- Rotating the halves keeps the all-zero vector (R100). -/
theorem rotatedHalves_zero (n : Nat) : rotatedHalves 0 n = 0 :=
  bits_ext fun j hj => by rw [bit_rotatedHalves _ _ hj, bit_zero, bit_zero]

/-- Rotating the halves keeps the all-one vector (R100). -/
theorem rotatedHalves_allOnes (n : Nat) : rotatedHalves (BitVec.allOnes 10) n = BitVec.allOnes 10 :=
  bits_ext fun j hj => by
    rw [bit_rotatedHalves _ _ hj, bit_allOnes, bit_allOnes, decide_eq_true hj, decide_eq_true (rotationSource_lt n j)]

/-- Settles O22: selection and rotation both keep a uniform vector; the all-one vector needs the tables in range. -/
theorem uniformKeysGiveUniformSubkeys : Obligations.UniformKeysGiveUniformSubkeys := by
  intro p
  obtain ⟨⟨hlen10, hrange10⟩, ⟨hlen8, hrange8⟩, -⟩ := p.tables_in_range
  constructor
  · simp only [keySched_eq, perm_zero, rotatedHalves_zero]
  · simp only [keySched_eq, perm_allOnes hlen10 hrange10, rotatedHalves_allOnes, perm_allOnes hlen8 hrange8]

end Sys2Proof.Machine
end

section
/-! One equation for each outcome of `LDKEY` (R102, R103) and of a block command with no extension bits (R125, R126),
and what a faulting command does to the machine (R158). -/

namespace Sys2Proof.Machine

/-- A non-zero extension field is refused before anything else is looked at (R152, R157). -/
theorem ldkeyCommand_of_extended {kx : BitVec 2} (h : kx ≠ 0#2) (k : BitVec 10) (e : Engine) :
    ldkeyCommand kx k e = raise .invalidKeyLength e :=
  if_pos (decide_eq_true h)

/-- With no extension bits the check of the parameter set decides (R103). -/
theorem ldkeyCommand_of_legal (k : BitVec 10) (e : Engine) :
    ldkeyCommand 0#2 k e = if e.strict && !paramsValid e.params.set then raise .nonBijectivePermutationTable e
      else (e.loadInstance (instanceOf e.params.set k), respond 0 0) := by
  rw [ldkeyCommand, keyOperand_eq]
  rfl

/-- Under `STRICT` an invalid set is refused (R103, R154). -/
theorem ldkeyCommand_of_invalid {e : Engine} (hstrict : e.strict = true) (hinvalid : paramsValid e.params.set = false)
    (k : BitVec 10) : ldkeyCommand 0#2 k e = raise .nonBijectivePermutationTable e := by
  rw [ldkeyCommand_of_legal, hstrict, hinvalid]
  rfl

/-- A build that lets it loads the key (R102). -/
theorem ldkeyCommand_of_valid {e : Engine} (hvalid : e.strict = true → paramsValid e.params.set = true)
    (k : BitVec 10) : ldkeyCommand 0#2 k e = (e.loadInstance (instanceOf e.params.set k), respond 0 0) := by
  rw [ldkeyCommand_of_legal, if_neg]
  simpa using hvalid

/-- A command word that raises a fault adds the fault's response and may set `ERR`; all else stays (R158). -/
theorem exec_of_raise {i : Instr} (hi : i.isCommandWord = true) {f : Fault} {s : State}
    (h : commandOf i s.engine = raise f s.engine) : exec i s = .next { s with
      engine := { s.engine with err := if s.engine.err = 0#4 then f.code else s.engine.err },
      responses := s.responses ++ [respond f.code 0] } := by
  rw [exec_commandWord hi, State.transact, h]
  rfl

/-- With no key loaded, a block command with no extension bits is refused (R156). -/
theorem blockCommand_of_no_key (f : ParamSet → CipherInstance → BitVec 8 → BitVec 8) (b : BitVec 8) {e : Engine}
    (h : e.cipher = none) : blockCommand f 0#4 b e = raise .keyNotLoaded e := by
  rw [blockCommand, h]
  rfl

/-- With a key loaded, a block command with no extension bits answers the block function's value and changes nothing
(R125, R126). -/
theorem blockCommand_of_key (f : ParamSet → CipherInstance → BitVec 8 → BitVec 8) (b : BitVec 8) {e : Engine}
    {c : CipherInstance} (h : e.cipher = some c) : blockCommand f 0#4 b e = (e, respond 0 (f e.params.set c b)) := by
  rw [blockCommand, h, blockOperand_eq]
  simp only [resultByte_eq]
  rfl

/-- Settles O29: the three outcomes of `LDKEY`, and the number of its word. -/
theorem ldkeyLoadsTheKeyOrFaults : Obligations.LdkeyLoadsTheKeyOrFaults := by
  intro s kx k
  refine ⟨?_, fun hkx => ?_, ?_, ?_⟩
  · rintro rfl
    simp [encodeWord_toNat]
  · exact exec_of_raise (i := .ldkey kx k) rfl (ldkeyCommand_of_extended hkx k s.engine)
  · rintro rfl hstrict hinvalid
    exact exec_of_raise (i := .ldkey 0 k) rfl (ldkeyCommand_of_invalid hstrict hinvalid k)
  · rintro rfl hvalid
    have hload : commandOf (.ldkey 0#2 k) s.engine = _ := ldkeyCommand_of_valid hvalid k
    rw [exec_commandWord rfl, State.transact, hload]
    rfl

end Sys2Proof.Machine
end

section
/-! `STRICT` on an invalid parameter set bars every key load (R103, R154). -/

namespace Sys2Proof.Machine

/-- `KV` is 0 exactly when no instance is loaded (R26). -/
theorem kv_eq_false_iff {e : Engine} : e.kv = false ↔ e.cipher = none := by simp [Engine.kv]

/-- An engine that has no key and that no `LDKEY` gives one: `STRICT` on an invalid set (R103). -/
def Engine.barred (e : Engine) : Prop :=
  e.strict = true ∧ paramsValid e.params.set = false ∧ e.cipher = none

/-- No command gives a barred engine a key: the one that could is an `LDKEY` on a valid set (R103). -/
theorem commandOf_barred (i : Instr) {e : Engine} (h : e.barred) : (commandOf i e).1.barred := by
  obtain ⟨hstrict, hinvalid, hnokey⟩ := h
  obtain ⟨hparams, hstrict'⟩ := commandOf_build i e
  refine ⟨hstrict'.trans hstrict, hparams ▸ hinvalid, ?_⟩
  obtain hkept | ⟨_, _, -, -, hvalid⟩ | ⟨_, -, hclear⟩ := commandOf_cipher_cases i e
  · exact hkept.trans hnokey
  · exact absurd (hvalid hstrict) (by simp [hinvalid])
  · exact hclear

/-- A barred engine stays barred over every run (R103). -/
theorem runActs_barred (acts : List HostAct) {s : State} (h : s.engine.barred) : (runActs acts s).engine.barred :=
  runActs_engine_relates (R := fun e e' => e.barred → e'.barred) (fun _ => id) (fun _ _ _ hab hbc => hbc ∘ hab)
    (fun dir c _ => issueCommand_eq dir c ▸ commandOf_barred _) (fun w _ _ => commandOf_barred (decode w))
    (fun _ _ ⟨hstrict, hinvalid, _⟩ => ⟨hstrict, hinvalid, rfl⟩) s h

/-- Settles O49: the run ends barred, where `LDKEY` is refused for the set and `ENC` and `DEC` for want of a key. -/
theorem strictInvalidBuildNeverLoadsAKey : Obligations.StrictInvalidBuildNeverLoadsAKey := by
  intro acts s hstrict hinvalid hkv
  obtain ⟨hstrict, hinvalid, hnokey⟩ := runActs_barred acts ⟨hstrict, hinvalid, kv_eq_false_iff.1 hkv⟩
  exact ⟨kv_eq_false_iff.2 hnokey,
    fun k => ⟨_, exec_of_raise rfl (ldkeyCommand_of_invalid hstrict hinvalid k), rfl⟩,
    fun b => ⟨_, exec_of_raise rfl (blockCommand_of_no_key encryptBlock b hnokey), rfl⟩,
    fun b => ⟨_, exec_of_raise rfl (blockCommand_of_no_key decryptBlock b hnokey), rfl⟩⟩

end Sys2Proof.Machine
end

section
/-! Loads and block commands in a run: the re-keying hazard (R104, R178). -/

namespace Sys2Proof.Machine

/-- A command word in a run is one transaction of the command it encodes (R55, R61). -/
theorem runActs_encodedCommand {i : Instr} {w : Word} (h : encodeWord i = some w) (acts : List HostAct) (s : State) :
    runActs (.event (.command w) :: acts) s = runActs acts (s.transact (commandOf i)) := by
  rw [runActs_cons, actResult, decodeOfEncodeIsTheCommand i w h]

/-- A load and then a block command, on a build that lets the load: the block function's value under the key just
loaded, whatever was loaded before (R104, R125, R126). -/
theorem runActs_load_block {k : BitVec 10} {b : BitVec 8} {i : Instr}
    {f : ParamSet → CipherInstance → BitVec 8 → BitVec 8} {wk wb : Word} (hk : encodeWord (.ldkey 0#2 k) = some wk)
    (hb : encodeWord i = some wb) (hi : commandOf i = blockCommand f 0#4 b) {s : State}
    (hvalid : paramsValid s.engine.params.set = true) (acts : List HostAct) :
    runActs (.event (.command wk) :: .event (.command wb) :: acts) s = runActs acts { s with
      engine := s.engine.loadInstance (instanceOf s.engine.params.set k),
      responses := s.responses ++
        [respond 0 0, respond 0 (f s.engine.params.set (instanceOf s.engine.params.set k) b)] } := by
  have hload : commandOf (.ldkey 0#2 k) s.engine = _ := ldkeyCommand_of_valid (fun _ => hvalid) k
  have hblock := blockCommand_of_key f b (loadInstance_cipher s.engine (instanceOf s.engine.params.set k))
  rw [runActs_encodedCommand hk, runActs_encodedCommand hb, hi, State.transact, State.transact, hload, hblock]
  simp

/-- Settles O59: three loads, each followed by a block command that answers under its own key. -/
theorem rekeyingBreaksTheRoundTrip : Obligations.RekeyingBreaksTheRoundTrip := by
  have hvalid : paramsValid paramsStd.set = true := by decide
  have hload : encodeWord (.ldkey 0#2 0x053) = some 0x1053 := rfl
  have hrekey : encodeWord (.ldkey 0#2 0x282) = some 0x1282 := rfl
  have henc : encodeWord (.enc 0 0xB5) = some 0x20B5 := rfl
  have hdec : encodeWord (.dec 0 0x9B) = some 0x309B := rfl
  have hcipher : encryptBlock paramsStd.set (instanceOf paramsStd.set 0x053) 0xB5 = 0x9B := by decide +kernel
  have hwrong : decryptBlock paramsStd.set (instanceOf paramsStd.set 0x282) 0x9B = 0x13 := by decide +kernel
  have hright : decryptBlock paramsStd.set (instanceOf paramsStd.set 0x053) 0x9B = 0xB5 := by decide +kernel
  unfold Obligations.RekeyingBreaksTheRoundTrip
  simp only [List.map_cons, List.map_nil]
  rw [runActs_load_block hload henc rfl hvalid, runActs_load_block hrekey hdec rfl hvalid,
    runActs_load_block hload hdec rfl hvalid, runActs_nil]
  simp only [loadInstance_params, State.reset, resetOf_params, resetOf_responses, hcipher, hwrong, hright]
  rfl

end Sys2Proof.Machine
end

section
/-! The expansion `EP` (R110), and the round `ROUND` as its own inverse under one subkey (R113, R115). -/

namespace Sys2Proof.Machine

/-- Settles O23. -/
theorem expansionRotatesBothWays : Obligations.ExpansionRotatesBothWays := perm_ep

/-- A round adds the round value of the right half to the left half (R113). -/
@[simp] theorem feistelRound_fst (P : ParamSet) (l r : BitVec 4) (k : BitVec 8) :
    (feistelRound P l r k).1 = l ^^^ roundValue P r k := rfl

/-- A round leaves the right half alone (R113). -/
@[simp] theorem feistelRound_snd (P : ParamSet) (l r : BitVec 4) (k : BitVec 8) : (feistelRound P l r k).2 = r := rfl

/-- Settles O25: the right half stays, so the second round adds the same round value to the left half, and the two
cancel. -/
theorem roundUndoesItself : Obligations.RoundUndoesItself := by
  intro P l r k
  refine ⟨feistelRound_snd P l r k, Prod.ext ?_ (by rw [feistelRound_snd, feistelRound_snd])⟩
  rw [feistelRound_fst, feistelRound_fst, feistelRound_snd, BitVec.xor_assoc, BitVec.xor_self, BitVec.xor_zero]

end Sys2Proof.Machine
end

section
/-! `BLOCK` in its closed form (R122), and that `BLOCK` with the subkeys exchanged undoes it (R127, R128). -/

namespace Sys2Proof.Machine

/-- Settles O26: the swap stands between the rounds only, so the second round's left half is the first one's right. -/
theorem blockClosedForm : Obligations.BlockClosedForm := by
  intro P l0 r0 b ka kb hb
  simp only [block, hb, swapHalves, feistelRound_fst, feistelRound_snd, slice_append_left, slice_append_right]

/-- `BLOCK` with the subkeys exchanged gives the block back (R127): `IP` undoes `IPINV`, the halves it then sees are
`r0 xor f2` and `l0 xor f1`, and each round adds the round value that the other call added. -/
theorem block_block_exchanged (p : Params) (b ka kb : BitVec 8) : block p.set (block p.set b ka kb) kb ka = b := by
  obtain ⟨l0, r0, hb⟩ : ∃ l0 r0 : BitVec 4, perm 8 p.set.ip b = l0 ++ r0 :=
    ⟨_, _, (slice_append_slice (m := 4) (n := 4) _).symm⟩
  have undo := (ipInvUndoesIp p).2
  have hfirst := blockClosedForm p.set l0 r0 b ka kb hb
  have hsecond := blockClosedForm p.set _ _ _ kb ka ((congrArg (perm 8 p.set.ip) hfirst).trans (undo _).2)
  simp only [BitVec.xor_assoc, BitVec.xor_self, BitVec.xor_zero] at hsecond
  rw [hsecond, ← hb, (undo b).1]

/-- Settles O27: `ENCRYPT` and `DECRYPT` are `BLOCK` with the subkeys in the two orders. -/
theorem blockRoundTrip : Obligations.BlockRoundTrip := fun p c b =>
  ⟨block_block_exchanged p b c.k1 c.k2, block_block_exchanged p b c.k2 c.k1⟩

/-- Settles O28: `DECRYPT` under the same key is the inverse on both sides. -/
theorem encryptionIsABijection : Obligations.EncryptionIsABijection := fun p k =>
  Function.bijective_iff_has_inverse.2 ⟨decryptBlock p.set (instanceOf p.set k),
    fun b => (blockRoundTrip p _ b).1, fun b => (blockRoundTrip p _ b).2⟩

/-- A valid build that differs from the default one in `IP` alone. -/
def paramsReversedIp : Params := ⟨{ paramsStdSet with ip := [8, 7, 6, 5, 4, 3, 2, 1] }, by decide⟩

/-- Settles O60: under key 0x053 the default build encrypts 0xB5 to 0x9B, which the build with the reversed `IP`
decrypts to another block. -/
theorem differentBuildsNeedNotInteroperate : Obligations.DifferentBuildsNeedNotInteroperate := by
  have hcipher : encryptBlock paramsStd.set (instanceOf paramsStd.set 0x053) 0xB5 = 0x9B := by decide +kernel
  have hforeign : decryptBlock paramsReversedIp.set (instanceOf paramsReversedIp.set 0x053) 0x9B ≠ 0xB5 := by
    decide +kernel
  exact ⟨paramsStd, paramsReversedIp, 0x053, 0xB5, by decide, by decide, hcipher ▸ hforeign⟩

end Sys2Proof.Machine
end

section
/-! The block commands `ENC` and `DEC` at the port (R125, R126): their outcomes, the round trip (R127), and that other
callers' reading commands leave their answers (R131). -/

namespace Sys2Proof.Machine

/-- A non-zero extension field is refused before anything else is looked at (R153, R157). -/
theorem blockCommand_of_extended (f : ParamSet → CipherInstance → BitVec 8 → BitVec 8) {bx : BitVec 4} (h : bx ≠ 0#4)
    (b : BitVec 8) (e : Engine) : blockCommand f bx b e = raise .invalidBlockLength e :=
  if_pos (decide_eq_true h)

/-- A success response is the number of its data (R57). -/
theorem respond_success (d : Byte) : respond 0 d = BitVec.ofNat 16 (val d) :=
  eq_ofNat_of_toNat (by simpa [val] using (respondIsStatusTimes4096PlusData 0 d).1)

/-- With a key loaded, `ENC` and `DEC` answer the block function's value, and nothing else changes (R125, R126). -/
theorem exec_block_of_key {i : Instr} (hi : i.isCommandWord = true)
    {f : ParamSet → CipherInstance → BitVec 8 → BitVec 8} {b : BitVec 8} (hcmd : commandOf i = blockCommand f 0#4 b)
    {s : State} {c : CipherInstance} (h : s.engine.cipher = some c) :
    exec i s = .next { s with responses := s.responses ++ [respond 0 (f s.engine.params.set c b)] } := by
  rw [exec_commandWord hi, State.transact, hcmd, blockCommand_of_key f b h]

section Answers
variable {s : State} {c : CipherInstance} (h : s.engine.cipher = some c) (b : BitVec 8)
include h

/-- `ENC` with a key loaded (R125). -/
theorem exec_enc_of_key : exec (.enc 0#4 b) s =
    .next { s with responses := s.responses ++ [respond 0 (encryptBlock s.engine.params.set c b)] } :=
  exec_block_of_key rfl rfl h

/-- `DEC` with a key loaded (R126). -/
theorem exec_dec_of_key : exec (.dec 0#4 b) s =
    .next { s with responses := s.responses ++ [respond 0 (decryptBlock s.engine.params.set c b)] } :=
  exec_block_of_key rfl rfl h

end Answers

/-- Settles O30: the three outcomes of `ENC`, and the number of its word. -/
theorem encAnswersTheCiphertextOrFaults : Obligations.EncAnswersTheCiphertextOrFaults := by
  intro s bx b
  refine ⟨?_, fun hbx => ?_, ?_, ?_⟩
  · rintro rfl
    simp [encodeWord_toNat]
  · exact exec_of_raise (i := .enc bx b) rfl (blockCommand_of_extended encryptBlock hbx b s.engine)
  · rintro rfl hkv
    exact exec_of_raise (i := .enc 0 b) rfl (blockCommand_of_no_key encryptBlock b (kv_eq_false_iff.1 hkv))
  · rintro c rfl hc
    rw [exec_enc_of_key hc, respond_success, encryptBlock]

/-- Settles O31: the three outcomes of `DEC`, and the number of its word. -/
theorem decAnswersThePlaintextOrFaults : Obligations.DecAnswersThePlaintextOrFaults := by
  intro s bx b
  refine ⟨?_, fun hbx => ?_, ?_, ?_⟩
  · rintro rfl
    simp [encodeWord_toNat]
  · exact exec_of_raise (i := .dec bx b) rfl (blockCommand_of_extended decryptBlock hbx b s.engine)
  · rintro rfl hkv
    exact exec_of_raise (i := .dec 0 b) rfl (blockCommand_of_no_key decryptBlock b (kv_eq_false_iff.1 hkv))
  · rintro c rfl hc
    rw [exec_dec_of_key hc, respond_success, decryptBlock]

/-- Settles O37: neither command changes the engine, so the second answers under the same instance, and the blocks go
round (R127). -/
theorem encThenDecGivesTheBlockBack : Obligations.EncThenDecGivesTheBlockBack := by
  intro s b hkv
  obtain ⟨c, hc⟩ := Option.isSome_iff_exists.1 hkv
  obtain ⟨hdecrypted, hencrypted⟩ := blockRoundTrip s.engine.params c b
  have henc (rs y) := exec_enc_of_key (s := { s with responses := rs }) hc y
  have hdec (rs y) := exec_dec_of_key (s := { s with responses := rs }) hc y
  refine ⟨⟨_, _, _, henc s.responses b, rfl, rfl, hdec _ _, rfl, ?_⟩,
    ⟨_, _, _, hdec s.responses b, rfl, rfl, henc _ _, rfl, ?_⟩⟩
  · rw [hdecrypted]
  · rw [hencrypted]

/-- Settles O47: the run leaves the instance and the parameter set, and the answers read nothing else. -/
theorem readersDoNotDisturbOneAnother : Obligations.ReadersDoNotDisturbOneAnother := by
  intro acts s c b hread hc
  have hloaded := (onlyLdkeyClrAndResetChangeTheKey acts s hread).trans hc
  have hparams := (buildNeverChanges acts s).1
  rw [← hparams, ← respond_success, ← respond_success]
  exact ⟨exec_enc_of_key hloaded b, exec_dec_of_key hloaded b⟩

end Sys2Proof.Machine
end

section
/-! The text procedures `ENCTEXT` and `DECTEXT` (R137, R138): what a whole call does with a key, with none and on a wide
character (R141), and that decrypting the returned text gives the text back (R142). -/

namespace Sys2Proof.Machine

/-- The block function of a text procedure's commands, `ENCRYPT` or `DECRYPT` (R120, R121). -/
def Direction.blockFunction : Direction → ParamSet → CipherInstance → BitVec 8 → BitVec 8
  | .encrypt => encryptBlock
  | .decrypt => decryptBlock

/-- One character's command is the block command of its direction, with no extension bits (R137, R138). -/
theorem issueCommand_eq_blockCommand (dir : Direction) (x : Nat) :
    issueCommand dir x = blockCommand dir.blockFunction 0#4 (charBlock x) := by
  cases dir <;> rfl

section WithKey
variable {s : State} {c : CipherInstance} (h : s.engine.cipher = some c) (dir : Direction)
include h

/-- With a key loaded, a character's response is a success that carries the block function's value (R125, R126). -/
theorem issueResponse_of_key (x : Nat) :
    issueResponse dir x s = respond 0 (dir.blockFunction s.engine.params.set c (charBlock x)) := by
  rw [issueResponse, issueCommand_eq_blockCommand, blockCommand_of_key _ _ h]

/-- With a key loaded, a character's command adds its response and changes nothing else (R125, R126). -/
theorem transact_issueCommand_of_key (x : Nat) : s.transact (issueCommand dir x) = { s with
    responses := s.responses ++ [respond 0 (dir.blockFunction s.engine.params.set c (charBlock x))] } := by
  rw [State.transact, issueCommand_eq_blockCommand, blockCommand_of_key _ _ h]

/-- With a key loaded, the loop goes through the whole text: one success per character, and the data in order as its
output (R137). -/
theorem textLoop_of_key (text : List Nat) (out : List Byte) : textLoop dir text out s =
    ({ s with responses := s.responses ++
        text.map (fun x => respond 0 (dir.blockFunction s.engine.params.set c (charBlock x))) },
      { dir := dir, todo := [], status := .returned,
        out := out ++ text.map (fun x => dir.blockFunction s.engine.params.set c (charBlock x)) }) := by
  induction text generalizing s out with
  | nil => simp [textLoop]
  | cons x xs ih =>
    have hnext : (s.transact (issueCommand dir x)).engine.cipher = some c := (issueCommand_cipher dir x _).trans h
    rw [textLoop, issueResponse_of_key h, rspStatus_respond, rspData_respond, if_neg (fun hne => hne rfl), ih hnext,
      transact_issueCommand_of_key h]
    simp

end WithKey

/-- With no key loaded, the loop stops at the first character with `KeyNotLoaded` and discards its output (R156,
U14). -/
theorem textLoop_of_no_key {s : State} (h : s.engine.cipher = none) (dir : Direction) (x : Nat) (xs : List Nat)
    (out : List Byte) : textLoop dir (x :: xs) out s = (s.transact (raise .keyNotLoaded),
      { dir := dir, todo := [], out := [], status := .failed Fault.keyNotLoaded.code }) := by
  have hraise : issueCommand dir x s.engine = raise .keyNotLoaded s.engine := by
    rw [issueCommand_eq_blockCommand, blockCommand_of_no_key _ _ h]
  rw [textLoop, issueResponse, State.transact, hraise, raise_response, rspStatus_respond, if_pos (code_ne_zero _)]
  rfl

/-- A text holds a wide character or is single-byte (R141). -/
theorem wide_or_singleByte (text : List Nat) : (∃ x ∈ text, 255 < x) ∨ ∀ x ∈ text, x ≤ 255 :=
  (em _).imp_right fun hnone x hx => not_lt.1 fun hwide => hnone ⟨x, hx, hwide⟩

/-- A single-byte text passes the check that comes before the first character (R141). -/
theorem hasWideChar_of_singleByte {text : List Nat} (h : ∀ x ∈ text, x ≤ 255) : hasWideChar text = false := by
  simpa [hasWideChar] using h

/-- On single-byte text a whole call is the loop, and its record is kept (R137). -/
theorem runText_of_singleByte {text : List Nat} (h : ∀ x ∈ text, x ≤ 255) (dir : Direction) (s : State) :
    runText dir text s = (textLoop dir text [] s).1.addText (textLoop dir text [] s).2 := by
  rw [runText, hasWideChar_of_singleByte h]
  rfl

/-- A whole call on single-byte text with a key loaded returns the blocks' values in order (R137, R138). -/
theorem runText_of_key {text : List Nat} (h : ∀ x ∈ text, x ≤ 255) {s : State} {c : CipherInstance}
    (hc : s.engine.cipher = some c) (dir : Direction) : runText dir text s = { s with
      responses := s.responses ++
        text.map (fun x => BitVec.ofNat 16 (val (dir.blockFunction s.engine.params.set c (charBlock x)))),
      texts := s.texts ++
        [.mk dir [] (text.map (fun x => dir.blockFunction s.engine.params.set c (charBlock x))) .returned] } := by
  simp only [runText_of_singleByte h, textLoop_of_key hc, respond_success]
  rfl

/-- A whole call on single-byte text with no key loaded fails at its first character with code 6 (R156, R158). -/
theorem runText_of_no_key {text : List Nat} (h : ∀ x ∈ text, x ≤ 255) (hne : text ≠ []) {s : State}
    (hc : s.engine.cipher = none) (dir : Direction) : runText dir text s = { s with
      engine := { s.engine with err := if s.engine.err = 0#4 then 6 else s.engine.err },
      responses := s.responses ++ [0x6000],
      texts := s.texts ++ [{ dir := dir, todo := [], status := .failed 6, out := [] }] } := by
  obtain ⟨x, xs, rfl⟩ := List.exists_cons_of_ne_nil hne
  rw [runText_of_singleByte h, textLoop_of_no_key hc]
  rfl

/-- A whole call with a wide character issues nothing and fails with code 5 (R141, R155). -/
theorem runText_of_wide {text : List Nat} (h : ∃ x ∈ text, 255 < x) (dir : Direction) (s : State) :
    runText dir text s = { s with
      texts := s.texts ++ [{ dir := dir, todo := [], status := .failed 5, out := [] }] } := by
  rw [runText, hasWideChar_iff.2 h]
  rfl

/-- Settles O35: the outcomes of a whole call, encrypting. -/
theorem enctextReturnsTheCiphertextOrFails : Obligations.EnctextReturnsTheCiphertextOrFails := by
  refine fun s text => ⟨fun c h hc => ?_, fun h hne hc => ?_, ?_, fun h => ?_⟩
  · exact congrArg Host.Outcome.next (runText_of_key h hc .encrypt)
  · exact congrArg Host.Outcome.next (runText_of_no_key h hne hc .encrypt)
  · rintro rfl
    rfl
  · exact congrArg Host.Outcome.next (runText_of_wide h .encrypt s)

/-- Settles O36: the outcomes of a whole call, decrypting. -/
theorem dectextReturnsThePlaintextOrFails : Obligations.DectextReturnsThePlaintextOrFails := by
  refine fun s text => ⟨fun c h hc => ?_, fun h hne hc => ?_, ?_, fun h => ?_⟩
  · exact congrArg Host.Outcome.next (runText_of_key h hc .decrypt)
  · exact congrArg Host.Outcome.next (runText_of_no_key h hne hc .decrypt)
  · rintro rfl
    rfl
  · exact congrArg Host.Outcome.next (runText_of_wide h .decrypt s)

/-- A returned character is single-byte (R139). -/
theorem blockChar_le (d : Byte) : blockChar d ≤ 255 := Nat.le_of_lt_succ d.isLt

/-- The block of a returned character is the returned byte (R136, R139). -/
theorem charBlock_blockChar (d : Byte) : charBlock (blockChar d) = d := blockOperand_eq d

/-- A single-byte character is the character of its block (R136, R139). -/
theorem blockChar_charBlock {x : Nat} (h : x ≤ 255) : blockChar (charBlock x) = x :=
  (BitVec.toNat_ofNat x 8).trans (Nat.mod_eq_of_lt (Nat.lt_succ_of_le h))

/-- A character whose block is encrypted, returned as a character, read back and decrypted comes back (R127, R142). -/
theorem blockChar_roundTrip (p : Params) {x : Nat} (h : x ≤ 255) (ka kb : BitVec 8) :
    blockChar (block p.set (charBlock (blockChar (block p.set (charBlock x) ka kb))) kb ka) = x := by
  rw [charBlock_blockChar, block_block_exchanged, blockChar_charBlock h]

/-- Settles O38: the first call leaves the engine and returns a single-byte text, so the second decrypts each
character's block under the same instance. -/
theorem textRoundTrip : Obligations.TextRoundTrip := by
  intro s text hkv h
  obtain ⟨c, hc⟩ := Option.isSome_iff_exists.1 hkv
  have hreturned (out : List Byte) : ∀ x ∈ out.map blockChar, x ≤ 255 := by simp [blockChar_le]
  have henc := (enctextReturnsTheCiphertextOrFails s text).1 c h hc
  have hdec (t : State) (ht : t.engine = s.engine) (out : List Byte) :=
    (dectextReturnsThePlaintextOrFails t (out.map blockChar)).1 c (hreturned out) (ht ▸ hc)
  refine ⟨_, _, _, _, henc, by rfl, by rfl, hdec _ (by rfl) _, by rfl, by rfl, ?_⟩
  simp only [List.map_map]
  have hchar (x : Nat) (hx : x ∈ text) := blockChar_roundTrip s.engine.params (h x hx) c.k1 c.k2
  exact (List.map_congr_left hchar).trans (List.map_id text)

end Sys2Proof.Machine
end

section
/-! A text procedure one character at a time (R143): what beginning and resuming a call do, and that a call resumed to
its end is the whole call. -/

namespace Sys2Proof.Machine

/-- The record of a call that has not failed: over when no character is left to issue (R137). -/
def unfailedCall (dir : Direction) (todo : List Nat) (out : List Byte) : TextCall where
  dir := dir
  todo := todo
  out := out
  status := if todo = [] then .returned else .running

/-- A call begun on single-byte text has its whole text to issue (R141, R143). -/
theorem openCall_of_singleByte {text : List Nat} (h : ∀ x ∈ text, x ≤ 255) (dir : Direction) :
    openCall dir text = unfailedCall dir text [] := by
  rw [openCall, hasWideChar_of_singleByte h]
  simp [unfailedCall]

/-- A call begun on a text with a wide character has failed (R141). -/
theorem openCall_of_wide {text : List Nat} (h : ∃ x ∈ text, 255 < x) (dir : Direction) :
    openCall dir text = unsupportedCall dir := by
  rw [openCall, if_pos (hasWideChar_iff.2 h)]

section Response
variable (call : TextCall) (cs : List Nat) {r : Word}

/-- After a success a call keeps the data and has the later characters to issue (R137). -/
theorem afterResponse_of_success (h : rspStatus r = 0#4) :
    call.afterResponse cs r = unfailedCall call.dir cs (call.out ++ [rspData r]) := by
  simp [TextCall.afterResponse, unfailedCall, h]

/-- After a fault a call is over, with no output (R137, U14). -/
theorem afterResponse_of_fault (h : rspStatus r ≠ 0#4) :
    call.afterResponse cs r = { call with todo := [], out := [], status := .failed (rspStatus r) } :=
  if_pos h

end Response

section Resume
variable {j : Nat} {s : State} {call : TextCall} (h : s.texts[j]? = some call)
include h

/-- Resuming a running call issues its next character's command (R143). -/
theorem resumeText_of_running {c : Nat} {cs : List Nat} (hrunning : call.status = .running)
    (htodo : call.todo = c :: cs) : resumeText j s = { s.transact (issueCommand call.dir c) with
      texts := s.texts.set j (call.afterResponse cs (issueResponse call.dir c s)) } := by
  simp only [resumeText, h, hrunning, htodo]

/-- Resuming a call that is over does nothing. -/
theorem resumeText_of_over (hover : call.status ≠ .running) : resumeText j s = s := by
  obtain hsame | ⟨call', c, cs, hcall', hrunning, -⟩ := resumeText_cases j s
  · exact hsame
  · rw [h, Option.some.injEq] at hcall'
    exact absurd hrunning (hcall' ▸ hover)

/-- However often a call that is over is resumed, nothing happens. -/
theorem runActs_resume_of_over (hover : call.status ≠ .running) (n : Nat) :
    runActs (List.replicate n (.resumeText j)) s = s := by
  induction n with
  | zero => rfl
  | succ n ih => rw [List.replicate_succ, runActs_cons, actResult, resumeText_of_over h hover, ih]

end Resume

/-- Resumed once per character left, a call that has not failed ends as the loop ends, in the engine, the responses and
its record (R143). -/
theorem runActs_resume_eq_textLoop (dir : Direction) (text : List Nat) (out : List Byte) (s : State) {j : Nat}
    {ts : List TextCall} (h : ts[j]? = some (unfailedCall dir text out)) :
    runActs (List.replicate text.length (.resumeText j)) { s with texts := ts } =
      { (textLoop dir text out s).1 with texts := ts.set j (textLoop dir text out s).2 } := by
  induction text generalizing out s ts with
  | nil =>
    obtain ⟨hj, hcall⟩ := List.getElem?_eq_some_iff.1 h
    have hsame : ts.set j (unfailedCall dir [] out) = ts := hcall ▸ List.set_getElem_self hj
    exact congrArg (fun us => { s with texts := us }) hsame.symm
  | cons c cs ih =>
    have hset (call : TextCall) : (ts.set j call)[j]? = some call :=
      List.getElem?_set_self (List.getElem?_eq_some_iff.1 h).1
    have hissue : resumeText j { s with texts := ts } = { s.transact (issueCommand dir c) with
        texts := ts.set j ((unfailedCall dir (c :: cs) out).afterResponse cs (issueResponse dir c s)) } :=
      resumeText_of_running (s := { s with texts := ts }) h rfl rfl
    rw [List.length_cons, List.replicate_succ, runActs_cons, actResult, hissue, textLoop]
    split
    · next hfault =>
      rw [afterResponse_of_fault _ cs hfault]
      exact runActs_resume_of_over (hset _) (by simp) cs.length
    · next hsuccess =>
      rw [afterResponse_of_success _ cs (not_not.1 hsuccess)]
      exact (ih _ (s.transact (issueCommand dir c)) (hset _)).trans (by rw [List.set_set]; rfl)

/-- A call begun and then resumed once per character, with nothing between, is the whole call (R143). -/
theorem runActs_begin_resume (dir : Direction) (text : List Nat) (s : State) :
    runActs (List.replicate text.length (.resumeText s.texts.length)) (beginText dir text s) = runText dir text s := by
  have hbegun (call : TextCall) : (s.texts ++ [call])[s.texts.length]? = some call := List.getElem?_concat_length
  rw [beginText]
  obtain hwide | hsingle := wide_or_singleByte text
  · rw [openCall_of_wide hwide, runText_of_wide hwide]
    exact runActs_resume_of_over (s := s.addText (unsupportedCall dir)) (hbegun _) (by simp [unsupportedCall]) _
  · rw [openCall_of_singleByte hsingle, State.addText, runActs_resume_eq_textLoop dir text [] s (hbegun _),
      runText_of_singleByte hsingle, State.addText, (textLoop_ports dir text [] s).2]
    simp

/-- Settles O48: a begun call is open or has failed, a resumed one takes the response to its next character's command,
and a call with a wide character is over from the start, while any other goes as the loop goes. -/
theorem resumedTextEqualsTheWholeCall : Obligations.ResumedTextEqualsTheWholeCall := by
  refine ⟨fun dir text s => ⟨_, openCall dir text, rfl, rfl, ?_⟩, fun j call c cs s hcall hrunning htodo => ?_,
    fun dir text s => ?_⟩
  · obtain hwide | hsingle := wide_or_singleByte text
    · rw [openCall_of_wide hwide]
      exact ⟨rfl, rfl, fun _ => ⟨rfl, rfl⟩, fun hsingle => absurd hwide (by simpa using hsingle)⟩
    · rw [openCall_of_singleByte hsingle]
      exact ⟨rfl, rfl, fun hwide => absurd hwide (by simpa using hsingle), fun _ => ⟨rfl, rfl⟩⟩
  · have hresume : perform (.resumeText j) s = _ :=
      congrArg Host.Outcome.next (resumeText_of_running hcall hrunning htodo)
    refine ⟨issueResponse call.dir c s, s.transact (issueCommand call.dir c), ?_, rfl, fun hr => ?_, fun hr => ?_⟩
    · rw [issueCommand_eq]
      cases call.dir <;> rfl
    · rw [hresume, afterResponse_of_success _ cs hr]
      rfl
    · rw [hresume, afterResponse_of_fault _ cs hr]
  · rw [runActs_cons, runActs_cons, runActs_nil]
    exact runActs_begin_resume dir text s

end Sys2Proof.Machine
end

section
/-! One equation for each outcome of `STAT` (R145) and `CLR` (R146), and the status byte as a number (R28). -/

namespace Sys2Proof.Machine

/-- A non-zero `ARG` is refused before anything else is looked at (R145, R157). -/
theorem statCommand_of_reserved {arg : BitVec 12} (h : arg ≠ 0#12) (e : Engine) :
    statCommand arg e = raise .illegalCommand e :=
  if_pos (decide_eq_true h)

/-- With `ARG = 0`, `STAT` answers the status byte and changes nothing (R145). -/
theorem statCommand_zero (e : Engine) : statCommand 0#12 e = (e, respond 0 e.statusByte) := rfl

/-- A non-zero `ARG` is refused and the instance stays (R146, R157). -/
theorem clrCommand_of_reserved {arg : BitVec 12} (h : arg ≠ 0#12) (e : Engine) :
    clrCommand arg e = raise .illegalCommand e :=
  if_pos (decide_eq_true h)

/-- With `ARG = 0`, `CLR` ends the instance and answers 0 (R146). -/
theorem clrCommand_zero (e : Engine) : clrCommand 0#12 e = (e.clearInstance, respond 0 0) := rfl

/-- The status byte is `KV * 128 + PV * 64 + ERR` (R28, R145). -/
theorem statusByte_val (e : Engine) : val e.statusByte =
    (if e.cipher.isSome then 1 else 0) * 128 + (if paramsValid e.params.set then 1 else 0) * 64 + e.err.toNat := by
  have hparts : val e.statusByte = e.kv.toNat * 128 + (e.pv.toNat * 64 + e.err.toNat) := by
    rw [val, Engine.statusByte, append_toNat, append_toNat, append_toNat]
    simp
  rw [hparts, Bool.toNat, Bool.toNat, Bool.cond_eq_ite, Bool.cond_eq_ite, ← Nat.add_assoc]
  rfl

/-- Settles O32: the two outcomes of `STAT`, and the number of its word. -/
theorem statAnswersTheStatusByte : Obligations.StatAnswersTheStatusByte := by
  intro s arg
  refine ⟨?_, fun harg => ?_, ?_⟩
  · rintro rfl
    rfl
  · exact exec_of_raise (i := .stat arg) rfl (statCommand_of_reserved harg s.engine)
  · rintro rfl
    have hstat : commandOf (.stat 0#12) s.engine = _ := statCommand_zero s.engine
    rw [exec_commandWord rfl, State.transact, hstat, respond_success, statusByte_val]

/-- Settles O33: the two outcomes of `CLR`, and the number of its word. -/
theorem clrDropsTheInstance : Obligations.ClrDropsTheInstance := by
  intro s arg
  refine ⟨?_, fun harg => ?_, ?_⟩
  · rintro rfl
    rfl
  · exact exec_of_raise (i := .clr arg) rfl (clrCommand_of_reserved harg s.engine)
  · rintro rfl
    have hclr : commandOf (.clr 0#12) s.engine = _ := clrCommand_zero s.engine
    rw [exec_commandWord rfl, State.transact, hclr]
    rfl

end Sys2Proof.Machine
end

section
/-! Every step answers a next state and takes exactly one action off the port (R184, R185). -/

namespace Sys2Proof.Machine

/-- With nothing pending a step leaves the state (R185; log entry 3). -/
theorem step_of_idle {s : State} (h : s.pending = []) : step s = .next s := by
  rw [step, takeNext, h]

/-- No action touches what the host presents next: it would keep any other list there (R185). -/
theorem actResult_pending (a : HostAct) (s : State) : (actResult a s).pending = s.pending := by
  have hkeep : actResult a s = (actResult a s).present s.pending := actResult_present a s s.pending
  rw [hkeep, present_pending]

/-- Settles O54: the idle step, or the result of the action at the port with the others left. -/
theorem everyStepAnswersANextState : Obligations.EveryStepAnswersANextState := by
  intro s
  refine ⟨?_, step_of_idle⟩
  cases hp : s.pending with
  | nil => exact ⟨s, step_of_idle hp, hp⟩
  | cons a rest => exact ⟨_, (step_of_pending hp).trans (perform_eq_next a _), actResult_pending a _⟩

end Sys2Proof.Machine
end

section
/-! Faults at the port: what a faulting word leaves unchanged (R158), and which status every word answers (R157). -/

namespace Sys2Proof.Machine

/-- The one response a word adds is that of its command (R55). -/
theorem response_eq_of_exec_decode {w : Word} {s t : State} {r : Word} (ht : exec (decode w) s = .next t)
    (hr : t.responses = s.responses ++ [r]) : r = (commandOf (decode w) s.engine).2 := by
  rw [exec_commandWord (decode_isCommandWord w)] at ht
  obtain rfl := Host.Outcome.next.inj ht
  simpa using hr.symm

/-- Settles O42: a status that is not 0 is that of a raised fault, and raising it is the whole effect. -/
theorem faultingCommandChangesOnlyErr : Obligations.FaultingCommandChangesOnlyErr := by
  intro w s t r ht hr hst
  obtain rfl := response_eq_of_exec_decode ht hr
  obtain ⟨f, hraise, -⟩ | ⟨d, hsuccess, -⟩ := commandOf_cases (decode w) s.engine
  · rw [exec_of_raise (decode_isCommandWord w) hraise] at ht
    obtain rfl := Host.Outcome.next.inj ht
    rw [hraise, raise_response, rspStatus_respond]
  · rw [hsuccess, rspStatus_respond] at hst
    contradiction

/-- The fault of an instruction that is not well formed, by its opcode alone (R62, R151, R152, R153). -/
def wordFault : Instr → Fault
  | .ldkey _ _ => .invalidKeyLength
  | .enc _ _ | .dec _ _ => .invalidBlockLength
  | .stat _ | .clr _ | .illegal0 _ | .illegal67 _ | .illegal8F _ | .enctext _ | .dectext _ => .illegalCommand

/-- A malformed command raises its word's fault, whatever the state (R157). -/
theorem commandOf_of_malformed {i : Instr} (h : i.wellFormed = false) (e : Engine) :
    commandOf i e = raise (wordFault i) e := by
  cases i with
  | ldkey kx k => exact ldkeyCommand_of_extended (beq_eq_false_iff_ne.1 h) k e
  | enc bx b => exact blockCommand_of_extended encryptBlock (beq_eq_false_iff_ne.1 h) b e
  | dec bx b => exact blockCommand_of_extended decryptBlock (beq_eq_false_iff_ne.1 h) b e
  | stat arg => exact statCommand_of_reserved (beq_eq_false_iff_ne.1 h) e
  | clr arg => exact clrCommand_of_reserved (beq_eq_false_iff_ne.1 h) e
  | illegal0 _ | illegal67 _ | illegal8F _ | enctext _ | dectext _ => rfl

/-- The code of a word's own fault, by its opcode (R151, R152, R153). -/
theorem wordFault_decode_code (w : Word) : (wordFault (decode w)).code =
    if w.toNat / 4096 = 1 then 2 else if w.toNat / 4096 = 2 ∨ w.toNat / 4096 = 3 then 3 else 1 := by
  obtain ⟨hop, h⟩ | ⟨hop, h⟩ | ⟨hop, h⟩ | ⟨hop, h⟩ | ⟨hop, h⟩ | ⟨hop, h⟩ | ⟨hop, h⟩ | ⟨hop, h⟩ := decode_cases w
  iterate 6
    · rw [h, hop]
      rfl
  iterate 2
    · rw [h, if_neg (by omega), if_neg (by omega)]
      rfl

/-- The state check of `LDKEY`: `STRICT` on an invalid set (R154). -/
theorem ldkeyCommand_status (k : BitVec 10) (e : Engine) : rspStatus (ldkeyCommand 0#2 k e).2 =
    if e.strict = true ∧ paramsValid e.params.set = false then 4 else 0 := by
  split
  · next h =>
    obtain ⟨hstrict, hinvalid⟩ := h
    rw [ldkeyCommand_of_invalid hstrict hinvalid, raise_response, rspStatus_respond, Fault.code]
  · next h => rw [ldkeyCommand_of_valid (by simpa using h), rspStatus_respond]

/-- The state check of `ENC` and `DEC`: no key loaded (R156). -/
theorem blockCommand_status_eq (f : ParamSet → CipherInstance → BitVec 8 → BitVec 8) (b : BitVec 8) (e : Engine) :
    rspStatus (blockCommand f 0#4 b e).2 = if e.kv = false then 6 else 0 := by
  rw [Engine.kv]
  cases h : e.cipher with
  | none => rw [blockCommand_of_no_key f b h, raise_response, rspStatus_respond]; rfl
  | some c => rw [blockCommand_of_key f b h, rspStatus_respond]; rfl

/-- A well-formed word answers by its state check: `LDKEY` for the set, `ENC` and `DEC` for the key, and `STAT` and
`CLR` have none (R157). -/
theorem commandOf_decode_status_of_wellFormed {w : Word} (hw : (decode w).wellFormed = true) (e : Engine) :
    rspStatus (commandOf (decode w) e).2 =
      if w.toNat / 4096 = 1 ∧ e.strict = true ∧ paramsValid e.params.set = false then 4
      else if (w.toNat / 4096 = 2 ∨ w.toNat / 4096 = 3) ∧ e.kv = false then 6 else 0 := by
  obtain ⟨-, h⟩ | ⟨hop, h⟩ | ⟨hop, h⟩ | ⟨hop, h⟩ | ⟨hop, h⟩ | ⟨hop, h⟩ | ⟨-, h⟩ | ⟨-, h⟩ := decode_cases w <;>
    rw [h] at hw ⊢
  · contradiction
  · simp [hop, beq_iff_eq.1 hw, commandOf, ldkeyCommand_status]
  · simp [hop, beq_iff_eq.1 hw, commandOf, encCommand, blockCommand_status_eq]
  · simp [hop, beq_iff_eq.1 hw, commandOf, decCommand, blockCommand_status_eq]
  · simp [hop, beq_iff_eq.1 hw, commandOf, statCommand_zero]
  · simp [hop, beq_iff_eq.1 hw, commandOf, clrCommand_zero]
  · contradiction
  · contradiction

/-- Settles O43: a malformed word raises the fault of its opcode, and a well-formed one answers by its state check. -/
theorem wordChecksComeBeforeStateChecks : Obligations.WordChecksComeBeforeStateChecks := by
  intro w s t r ht hr
  obtain rfl := response_eq_of_exec_decode ht hr
  refine ⟨fun hw => ?_, fun hw => commandOf_decode_status_of_wellFormed hw s.engine⟩
  rw [commandOf_of_malformed hw, raise_response, rspStatus_respond, wordFault_decode_code]

end Sys2Proof.Machine
end

section
/-! The commands after a reset: the first one on any build (R173), and the literature pairs on the default build
(93_implementation_defined.md G4). -/

namespace Sys2Proof.Machine

/-- Settles O52: each command's outcome at a state with no key and no fault. -/
theorem firstCommandAfterReset : Obligations.FirstCommandAfterReset := by
  intro p strict
  have hnokey : (State.resetOf p strict).engine.cipher = none := resetOf_cipher p strict
  obtain ⟨-, -, hstat⟩ := statAnswersTheStatusByte (State.resetOf p strict) 0
  obtain ⟨-, -, hclr⟩ := clrDropsTheInstance (State.resetOf p strict) 0
  refine ⟨⟨_, hstat rfl, ?_⟩, ⟨_, hclr rfl, rfl⟩,
    fun b => ⟨_, exec_of_raise rfl (blockCommand_of_no_key encryptBlock b hnokey), rfl, rfl⟩,
    fun b => ⟨_, exec_of_raise rfl (blockCommand_of_no_key decryptBlock b hnokey), rfl, rfl⟩, fun k hvalid => ?_⟩
  · cases h : paramsValid p.set <;> simp [h]
  · obtain ⟨-, -, -, hload⟩ := ldkeyLoadsTheKeyOrFaults (State.resetOf p strict) 0 k
    exact ⟨_, hload rfl hvalid, rfl, rfl⟩

/-- A block command in a run with a key loaded: the block function's value, and the engine as before (R125, R126). -/
theorem runActs_block_of_key {b : BitVec 8} {i : Instr} {f : ParamSet → CipherInstance → BitVec 8 → BitVec 8}
    {w : Word} (hw : encodeWord i = some w) (hi : commandOf i = blockCommand f 0#4 b) {s : State} {c : CipherInstance}
    (hc : s.engine.cipher = some c) (acts : List HostAct) :
    runActs (.event (.command w) :: acts) s =
      runActs acts { s with responses := s.responses ++ [respond 0 (f s.engine.params.set c b)] } := by
  rw [runActs_encodedCommand hw, State.transact, hi, blockCommand_of_key f b hc]

/-- Settles O58: a load and two blocks under its key, then a second load and a block under that one. -/
theorem literaturePairsAreReproduced : Obligations.LiteraturePairsAreReproduced := by
  have hvalid : paramsValid paramsStd.set = true := by decide
  have hload : encodeWord (.ldkey 0#2 0x282) = some 0x1282 := rfl
  have hfirst : encodeWord (.enc 0 0x97) = some 0x2097 := rfl
  have hsecond : encodeWord (.enc 0 0x72) = some 0x2072 := rfl
  have hrekey : encodeWord (.ldkey 0#2 0x097) = some 0x1097 := rfl
  have hthird : encodeWord (.enc 0 0xA5) = some 0x20A5 := rfl
  have hpair1 : encryptBlock paramsStd.set (instanceOf paramsStd.set 0x282) 0x97 = 0x38 := by decide +kernel
  have hpair2 : encryptBlock paramsStd.set (instanceOf paramsStd.set 0x282) 0x72 = 0x77 := by decide +kernel
  have hpair3 : encryptBlock paramsStd.set (instanceOf paramsStd.set 0x097) 0xA5 = 0x36 := by decide +kernel
  unfold Obligations.LiteraturePairsAreReproduced
  simp only [List.map_cons, List.map_nil]
  rw [runActs_load_block hload hfirst rfl hvalid, runActs_block_of_key hsecond rfl rfl,
    runActs_load_block hrekey hthird rfl hvalid, runActs_nil]
  simp only [loadInstance_params, State.reset, resetOf_params, resetOf_responses, hpair1, hpair2, hpair3]
  rfl

end Sys2Proof.Machine
end
